-- ==== Sys2Proof/Word.lean ====
section
/-! DEFINITION. The two word widths of the block: wire bytes and host command words (R8 `BYTE_W`, R9 `CW_W`). -/

namespace Sys2Proof

/-- A wire byte, a segment code, a frame register: `BYTE_W` = 8 bits (R8). -/
abbrev Byte := BitVec 8

/-- A host command word: `CW_W` = 32 bits (R9, R70). It has no byte order (R65). -/
abbrev Word := BitVec 32

end Sys2Proof
end

