-- ==== Sys2Proof/Syntax.lean ====
section
/-! DEFINITION. The alphabets of the spec: the pin actions (R12, R100), the wire events (R56), the instructions of
spec/opcode_table.json (R72, R79) and the two spaces their words lie in. -/

namespace Sys2Proof

/-- The two modes of the data pin (R26). -/
inductive PinMode where
  /-- `OUT_OD` (0): output, open-drain, with pull-up. -/
  | outOd
  /-- `IN_PU` (1): input with pull-up. -/
  | inPu
  deriving DecidableEq, Repr, Inhabited

/-- The pin actions of R12 and R100. A level is `true` for high (1) and `false` for low (0). -/
inductive PinAction where
  /-- `CLK(b)` -/
  | clk (level : Bool)
  /-- `DIO(b)` -/
  | dio (level : Bool)
  /-- `MODE(IN)` and `MODE(OUT)` -/
  | mode (m : PinMode)
  /-- `DLY` -/
  | dly
  /-- `SMP` -/
  | smp
  deriving DecidableEq, Repr, Inhabited

/-- The wire events a receiver notes (R56). -/
inductive WireEvent where
  /-- `S`: START condition. -/
  | start
  /-- `P`: STOP condition. -/
  | stop
  /-- `B(b)`: a data bit at a rising clock edge. -/
  | bit (b : Bool)
  /-- `A`: the acknowledgment slot. -/
  | ackSlot
  deriving DecidableEq, Repr, Inhabited

/-- The rows of spec/opcode_table.json. The first nine are the host commands (R72), which the block accepts from its
command port; the last four are the wire command bytes (R79, R130), which the remote device reads as the first byte of
a wire transaction. -/
inductive Instr where
  | start
  | stop
  | sendb (imm8 : Byte)
  | setf (idx : BitVec 2) (imm8 : Byte)
  | wrf (off : BitVec 2)
  | brt (imm8 : Byte)
  | rend (value : BitVec 16) (colon : BitVec 1)
  | init
  | lut (lidx : BitVec 4)
  | wDataAuto
  | wDataFixed
  | wAddr (off : BitVec 2)
  | wCtrlOn (lvl : BitVec 3)
  deriving DecidableEq, Repr, Inhabited

/-- An instruction's bits in the space its row names: a host command word (32 bits) or a wire command byte (8 bits). -/
inductive Code where
  | word (w : Word)
  | wire (b : Byte)
  deriving DecidableEq, Repr, Inhabited

/-- The row's instruction is a host command (format other than WIRE in the table). -/
def Instr.isHost : Instr → Bool
  | .start | .stop | .sendb _ | .setf _ _ | .wrf _ | .brt _ | .rend _ _ | .init | .lut _ => true
  | .wDataAuto | .wDataFixed | .wAddr _ | .wCtrlOn _ => false

end Sys2Proof
end

