-- ==== Sys2Proof/WellFormed.lean ====
section
/-! DEFINITION. Which terms of Instr are instructions: every operand's range is its type's but the table index of LUT,
which is legal only up to 10 (R73, R76). -/

namespace Sys2Proof

/-- R76: `LUT` needs `lidx <= 10`; every other operand may hold any value of its width (R73). -/
def Instr.wf : Instr → Bool
  | .lut lidx => decide (lidx ≤ 10#4)
  | .start | .stop | .sendb _ | .setf _ _ | .wrf _ | .brt _ | .rend _ _ | .init => true
  | .wDataAuto | .wDataFixed | .wAddr _ | .wCtrlOn _ => true

end Sys2Proof
end

