-- ==== Sys2Proof/Decode.lean ====
section
/-! DEFINITION. The decoder, total on both code spaces and rejecting by name (R70 to R76, R79), and after it the encoder,
as R71 and R82 place the operands, and the opcode table's rows. -/

namespace Sys2Proof

/-- Why a code is no instruction. -/
inductive DecodeError where
  /-- `opc` is 0x0 or 0xA..0xF (R75). -/
  | reservedOpcode
  /-- a bit that R71 shows as 0 is set (R74). -/
  | reservedBits
  /-- `LUT` with index 11..15 (R76, D9). -/
  | lutIndex
  /-- a wire byte that no WIRE row of the table matches (R79). -/
  | notWireCommand
  deriving DecidableEq, Repr, Inhabited

/-- The opcode field `cw[31:28]` (R70). -/
def opcField (w : Word) : BitVec 4 := w.extractLsb' 28 4
/-- `imm8 = cw[7:0]` (R71). -/
def imm8Field (w : Word) : Byte := w.extractLsb' 0 8
/-- `idx = cw[9:8]` (R71). -/
def idxField (w : Word) : BitVec 2 := w.extractLsb' 8 2
/-- `off = cw[1:0]` (R71). -/
def offField (w : Word) : BitVec 2 := w.extractLsb' 0 2
/-- `value = cw[15:0]` (R71). -/
def valueField (w : Word) : BitVec 16 := w.extractLsb' 0 16
/-- `colon = cw[16]` (R71). -/
def colonField (w : Word) : BitVec 1 := w.extractLsb' 16 1
/-- `lidx = cw[3:0]` (R71). -/
def lidxField (w : Word) : BitVec 4 := w.extractLsb' 0 4

/-- Why an illegal host command word is illegal (R74, R75, R76). -/
def illegalReason (w : Word) : DecodeError :=
  if opcField w = 0#4 ∨ 10#4 ≤ opcField w then .reservedOpcode
  else if w &&& 0xFFFFFFF0#32 = 0x90000000#32 then .lutIndex
  else .reservedBits

/-- Decoding a host command word by the `mask` and `match` of each row (R72, R76). -/
def decodeWord (w : Word) : Except DecodeError Instr :=
  if w = 0x10000000#32 then .ok .start
  else if w = 0x20000000#32 then .ok .stop
  else if w &&& 0xFFFFFF00#32 = 0x30000000#32 then .ok (.sendb (imm8Field w))
  else if w &&& 0xFFFFFC00#32 = 0x40000000#32 then .ok (.setf (idxField w) (imm8Field w))
  else if w &&& 0xFFFFFFFC#32 = 0x50000000#32 then .ok (.wrf (offField w))
  else if w &&& 0xFFFFFF00#32 = 0x60000000#32 then .ok (.brt (imm8Field w))
  else if w &&& 0xFFFE0000#32 = 0x70000000#32 then .ok (.rend (valueField w) (colonField w))
  else if w = 0x80000000#32 then .ok .init
  else if w &&& 0xFFFFFFF0#32 = 0x90000000#32 ∧ lidxField w ≤ 10#4 then .ok (.lut (lidxField w))
  else .error (illegalReason w)

/-- Decoding a wire command byte by the `mask` and `match` of each row (R79). -/
def decodeWire (b : Byte) : Except DecodeError Instr :=
  if b = 0x40#8 then .ok .wDataAuto
  else if b = 0x44#8 then .ok .wDataFixed
  else if b &&& 0xFC#8 = 0xC0#8 then .ok (.wAddr (b.extractLsb' 0 2))
  else if b &&& 0xF8#8 = 0x88#8 then .ok (.wCtrlOn (b.extractLsb' 0 3))
  else .error .notWireCommand

/-- The decoder over both code spaces. -/
def decode : Code → Except DecodeError Instr
  | .word w => decodeWord w
  | .wire b => decodeWire b

/-- The instruction the decoder reads from a table row's bits: 32 bits are a host command word, presented whole (R65);
8 bits are a wire command byte. No other width is an instruction of the table. -/
def decodeTableWord (nbits w : Nat) : Option Instr :=
  if nbits = 32 then (decode (.word (BitVec.ofNat 32 w))).toOption
  else if nbits = 8 then (decode (.wire (BitVec.ofNat 8 w))).toOption
  else none

/-- The encoder: `match | operands`, each operand placed as R71 and R79 say (R82). -/
def encode : Instr → Code
  | .start => .word 0x10000000#32
  | .stop => .word 0x20000000#32
  | .sendb imm8 => .word (0x30000000#32 ||| imm8.setWidth 32)
  | .setf idx imm8 => .word (0x40000000#32 ||| (idx.setWidth 32 <<< 8) ||| imm8.setWidth 32)
  | .wrf off => .word (0x50000000#32 ||| off.setWidth 32)
  | .brt imm8 => .word (0x60000000#32 ||| imm8.setWidth 32)
  | .rend value colon => .word (0x70000000#32 ||| (colon.setWidth 32 <<< 16) ||| value.setWidth 32)
  | .init => .word 0x80000000#32
  | .lut lidx => .word (0x90000000#32 ||| lidx.setWidth 32)
  | .wDataAuto => .wire 0x40#8
  | .wDataFixed => .wire 0x44#8
  | .wAddr off => .wire (0xC0#8 ||| off.setWidth 8)
  | .wCtrlOn lvl => .wire (0x88#8 ||| lvl.setWidth 8)

/-- The host command word of an instruction, 0 (an illegal word) for a wire command byte. -/
def encodeWord (i : Instr) : Word :=
  match encode i with
  | .word w => w
  | .wire _ => 0#32

/-- `Legal(cw)` by the nine cases of R76. -/
def legal (cw : Word) : Bool :=
  cw == 0x10000000#32
  || cw == 0x20000000#32
  || cw &&& 0xFFFFFF00#32 == 0x30000000#32
  || cw &&& 0xFFFFFC00#32 == 0x40000000#32
  || cw &&& 0xFFFFFFFC#32 == 0x50000000#32
  || cw &&& 0xFFFFFF00#32 == 0x60000000#32
  || cw &&& 0xFFFE0000#32 == 0x70000000#32
  || cw == 0x80000000#32
  || (cw &&& 0xFFFFFFF0#32 == 0x90000000#32 && decide (lidxField cw ≤ 10#4))

/-- A row of the host command set: a word selects it iff `(cw & mask) == match` (R72). -/
structure Row where
  mnemonic : String
  mask : Word
  pattern : Word
  deriving DecidableEq, Repr

/-- The nine rows of R72 in the spec's order. -/
def hostRows : List Row :=
  [ ⟨"START", 0xFFFFFFFF#32, 0x10000000#32⟩, ⟨"STOP", 0xFFFFFFFF#32, 0x20000000#32⟩,
    ⟨"SENDB", 0xFFFFFF00#32, 0x30000000#32⟩, ⟨"SETF", 0xFFFFFC00#32, 0x40000000#32⟩,
    ⟨"WRF", 0xFFFFFFFC#32, 0x50000000#32⟩, ⟨"BRT", 0xFFFFFF00#32, 0x60000000#32⟩,
    ⟨"REND", 0xFFFE0000#32, 0x70000000#32⟩, ⟨"INIT", 0xFFFFFFFF#32, 0x80000000#32⟩,
    ⟨"LUT", 0xFFFFFFF0#32, 0x90000000#32⟩ ]

/-- The word selects the row (R72). -/
def Row.selects (r : Row) (cw : Word) : Bool := cw &&& r.mask == r.pattern

/-- A wire byte selects a WIRE row of R79: mask and match of 0x40, 0x44, 0xC0, 0x88. -/
def wireRows : List (Byte × Byte) :=
  [(0xFF#8, 0x40#8), (0xFF#8, 0x44#8), (0xFC#8, 0xC0#8), (0xF8#8, 0x88#8)]

end Sys2Proof
end

