-- ==== Sys2Proof/Config.lean ====
section
/-! DEFINITION. What the spec leaves free (each an opaque constant with no body, so no proof can use its value) and the
open parameters of R9. The parameters the spec fixes or gives a default stand with their uses in Machine/Operands.lean. -/

namespace Sys2Proof

/-- Free value: `remote_low` of instance `inst` at its draw `n`, where no scripted answer covers the sample (R27, U8, D24;
log entry 5). -/
opaque Config.remoteLow : (inst n : Nat) → Bool

/-- Free value: the wire events the receiver of instance `inst` sees when reset moves the pins, at draw `n` (R201, U5, D26;
log entry 7). -/
opaque Config.resetWire : (inst n : Nat) → List WireEvent

/-- Free value: the contents of digit-position register `k` of the remote device of instance `inst` after traffic the spec
does not define, at draw `n` (R58, U4, U13; log entry 6). -/
opaque Config.deviceReg : (inst n k : Nat) → Byte

/-- Free value: the control byte of the remote device of instance `inst` after traffic the spec does not define, at draw `n`
(U13; log entry 6). -/
opaque Config.deviceCtrl : (inst n : Nat) → Byte

/-- Open parameter `DELAY_TICKS` (R9, D18): clock cycles of one delay unit. -/
opaque Config.delayTicks : Nat

/-- Open: the system clock frequency `f_clk` in hertz (R212). -/
opaque Config.clockHz : Nat

/-- The two ways the clock pin may be driven (R9 `CLK_DRIVE`). -/
inductive Config.ClkDrive where
  | pushPull
  | openDrain
  deriving DecidableEq, Repr, Inhabited

/-- Open parameter `CLK_DRIVE` (R9, D19): no rule depends on it. -/
opaque Config.clkDrive : Config.ClkDrive

/-- Open parameter `PIN_PAIR` (R9, D23): the clock pin and the data pin of instance `inst`. -/
opaque Config.pinPair : (inst : Nat) → Nat × Nat

/-- Open parameter `N_INST` (R9, D23): number of instances in a system. -/
opaque Config.nInst : Nat

end Sys2Proof
end

