-- ==== Sys2Proof/Machine/Table.lean ====
section
/-! DEFINITION. The segment code table `SEG` (R51, R150): the parameter, its default contents, reading it. -/

namespace Sys2Proof.Machine

/-- `SEG[0..10]`: `LUT_N` = 11 entries of 8 bits (R8, R150). An open parameter (R9, D10, U11). -/
abbrev SegTable := Vector Byte 11

/-- The default contents of `SEG` (R150, D10); entries 2 to 7 and 9 rest on GK1 (PRESUMED, log entry 9). -/
def segDefault : SegTable :=
  #v[0x3F#8, 0x06#8, 0x5B#8, 0x4F#8, 0x66#8, 0x6D#8, 0x7D#8, 0x07#8, 0x7F#8, 0x6F#8, 0x00#8]

/-- `BLANK_IDX` (R9, D9). -/
def blankIdx : Nat := 10

/-- `SEG[idx]` in a table; an index the table lacks has no code (R51). -/
def segRead (t : SegTable) (idx : Nat) : Option Byte := t[idx]?

/-- `SEG[idx]` for an index known to exist; an index outside the table, which no rule reads, gives 0x00 (DESIGN CHOICE,
log entry 9). -/
def segCode (t : SegTable) (idx : Nat) : Byte := (segRead t idx).getD 0x00#8

end Sys2Proof.Machine
end

