-- ==== Sys2Proof/Machine/State.lean ====
section
/-! DEFINITION. The state of one instance (R20), of the reference remote device on its wires (R56, R58) and of the
environment's coming inputs (R7, R32), as plain data; the reasons a step can stop; the state after reset (R38). -/

namespace Sys2Proof.Machine

/-- Four bytes, index 0 the leftmost digit (R21, R53): the frame registers, a segment frame, the digit registers. -/
structure Frame where
  b0 : Byte
  b1 : Byte
  b2 : Byte
  b3 : Byte
  deriving DecidableEq, Repr, Inhabited

/-- The pin state (R24, R25, R26); a level is `true` for high. -/
structure Pins where
  clkOut : Bool
  dioOut : Bool
  dioMode : PinMode
  deriving DecidableEq, Repr, Inhabited

/-- `CUR` (R29): the accepted command word and the frame bytes latched with it. -/
structure Cur where
  word : Word
  frame : Frame
  deriving DecidableEq, Repr, Inhabited

/-- One element of the trace (R36): the action and, for `SMP`, the line level it read (`true` for high). -/
structure TraceEntry where
  act : PinAction
  read : Option Bool
  deriving DecidableEq, Repr, Inhabited

/-- A transaction being received (R56): the bits of the byte in progress in arrival order, and the bytes so far. -/
structure OpenTxn where
  bits : List Bool
  bytes : List Byte
  deriving DecidableEq, Repr, Inhabited

/-- The reader of R56: the open transaction, if one is open, and the closed ones, oldest first. -/
structure Rx where
  txn : Option OpenTxn
  closed : List (List Byte)
  deriving DecidableEq, Repr, Inhabited

/-- The remote device's address mode (R55, R58). -/
inductive AddrMode where
  /-- auto-increment, selected by `[0x40]`. -/
  | autoInc
  /-- fixed address, selected by `[0x44]` (PRESUMED from GK3; log entry 8). -/
  | fixedAddr
  /-- the spec does not say which mode the device is in (U12, U13). -/
  | undetermined
  deriving DecidableEq, Repr, Inhabited

/-- The reference remote device (R58) with its receiver. `rx.closed` holds the transactions it has not acted on yet;
`draws` is the model's own counter of free device values. -/
structure Device where
  rx : Rx
  mode : AddrMode
  dreg : Frame
  ctrl : Byte
  draws : Nat
  deriving DecidableEq, Repr, Inhabited

/-- Who answers the samples of the acknowledgment (R7, R27, R58; log entry 19). -/
inductive Responder where
  /-- an oracle under no law (R7, R27, D24): the scripted answers, then free values. -/
  | free
  /-- the reference remote device of the state (R58, D29): it pulls the line low in the acknowledgment slot of each byte it
  receives. -/
  | device
  /-- the mock of R58: it answers every `SMP` with `ACK = 1`. -/
  | mock
  deriving DecidableEq, Repr, Inhabited

/-- One move of the host (R7, R194). -/
inductive HostMove where
  /-- `cmd_valid = 1` with this `cmd_word`, held until it is accepted (R34). -/
  | present (w : Word)
  /-- `cmd_valid = 0` for one step. -/
  | quiet
  /-- `rst = 1` for one step (R200). -/
  | rst
  deriving DecidableEq, Repr, Inhabited

/-- The machine's state. `f` to `res` are the record of R20; `hist` is the trace (R36), newest entry first; `host`,
`answers` and `draws` are the model's own: the host's coming moves, the remote device's scripted coming answers (`true`
when it pulls the line low, R27) and the number of samples drawn; `dev` is the reference remote device (R58). `seg`,
`inst` and `responder` are the instance's parameters (R32), which no step changes: the table `SEG` (R9, R51), the
instance's number in its system, which only names its pin pair and its own free values (R9, R64, R191; log entries 15, 17),
and who answers the samples (R27, R58; log entry 19). -/
structure State where
  f : Frame
  cur : Cur
  upc : BitVec 9
  upcEnd : BitVec 9
  pins : Pins
  ack : Bool
  ill : Bool
  res : Byte
  hist : List TraceEntry
  host : List HostMove
  answers : List Bool
  draws : Nat
  dev : Device
  seg : SegTable
  inst : Nat
  responder : Responder
  deriving DecidableEq, Repr, Inhabited

/-- Why the machine stops. The block itself never does (R180, R195). -/
inductive Fault where
  /-- Raised by an act step whose `UPC` is not the index of an action of `Actions(CUR)`. No state that a run from reset
  meets raises it (the spec sets `UPC_END` to the list's length, R34). SAFE: the machine stops where the spec says
  nothing. -/
  | noAction
  deriving DecidableEq, Repr, Inhabited

/-- Why an instruction is refused. -/
inductive Refusal where
  /-- Raised only by an arm of exec whose instruction has no meaning yet; there is none such. SAFE. -/
  | notModelled (mnemonic : String)
  deriving DecidableEq, Repr, Inhabited

/-- Four 0x00 bytes: the reset contents of `F` (R21), the blank frame of INIT (R170). -/
def Frame.zero : Frame := ⟨0#8, 0#8, 0#8, 0#8⟩

/-- The bus-idle pin state, which is also the pins' reset state (R38, R41). -/
def Pins.idle : Pins := ⟨true, true, .outOd⟩

/-- The receiver at the beginning of a trace: no transaction open, none closed (R56). -/
def Rx.empty : Rx := ⟨none, []⟩

/-- The reference remote device at power-up. DESIGN CHOICE (log entry 2): the spec gives it any value (U12); the
registers are 0 and the mode promises nothing. -/
def Device.powerUp : Device := ⟨Rx.empty, .undetermined, Frame.zero, 0#8, 0⟩

/-- The machine right after reset (R38). `CUR` is unspecified there: zeros, DESIGN CHOICE (log entry 1). The host's moves
and the scripted answers are empty (log entries 4, 5). The table has its default contents (log entry 9) and the instance
is the first of its system (log entry 15). The samples are answered under no law (log entry 19). -/
def State.reset : State :=
  { f := Frame.zero
    cur := ⟨0#32, Frame.zero⟩
    upc := 0#9
    upcEnd := 0#9
    pins := Pins.idle
    ack := false
    ill := false
    res := 0#8
    hist := []
    host := []
    answers := []
    draws := 0
    dev := Device.powerUp
    seg := segDefault
    inst := 0
    responder := .free }

end Sys2Proof.Machine
end

