-- ==== Sys2Proof/Machine/Flags.lean ====
section
/-! DEFINITION. The flags and the derived signals (R23, R27): `BUSY`, the line levels, the acknowledgment. -/

namespace Sys2Proof.Machine

/-- `BUSY = 1` iff `UPC < UPC_END` (R23). -/
def State.busy (s : State) : Bool := decide (s.upc < s.upcEnd)

/-- `SCL_LINE = CLK_OUT` (R27). -/
def Pins.sclLine (p : Pins) : Bool := p.clkOut

/-- `master_low`: the block pulls the data line low (R27). -/
def Pins.masterLow (p : Pins) : Bool := decide (p.dioMode = .outOd) && !p.dioOut

/-- `SDA_LINE` with the remote device's pull (R27). -/
def Pins.sdaLine (p : Pins) (remoteLow : Bool) : Bool := !(p.masterLow || remoteLow)

/-- The level the master alone gives the data line (R56 `sda`). -/
def Pins.masterSda (p : Pins) : Bool := !p.masterLow

/-- The value `SMP` gives `ACK`: 1 iff the line reads low (R105). -/
def ackOf (line : Bool) : Bool := !line

/-- The oracle's answer to the next sample: the scripted one if there is one, else a free value of the instance's own
(R7, R27, U8; log entry 5). -/
def State.oracleLow (s : State) : Bool :=
  match s.answers with
  | b :: _ => b
  | [] => Config.remoteLow s.inst s.draws

/-- The reader of R56 has just taken a whole byte into the open transaction. -/
def Rx.byteTaken (r : Rx) : Bool :=
  match r.txn with
  | some t => t.bits.isEmpty && !t.bytes.isEmpty
  | none => false

/-- The reference remote device pulls the line low in the acknowledgment slot of a byte it receives (R58, D29): while the
ninth clock pulse is high, the byte having been taken at its rising edge (R56). That it pulls exactly while the clock is high
there is DESIGN CHOICE (N17; log entry 19); the block looks at the line only then. -/
def State.deviceLow (s : State) : Bool :=
  decide (s.pins.dioMode = .inPu) && s.pins.clkOut && s.dev.rx.byteTaken

/-- `remote_low` (R27), by who answers: the oracle of R7, the reference remote device or the mock of R58 (log entry 19). -/
def State.remoteLow (s : State) : Bool :=
  match s.responder with
  | .free => s.oracleLow
  | .device => s.deviceLow
  | .mock => true

/-- The level `SMP` reads in this state (R105). -/
def State.lineRead (s : State) : Bool := s.pins.sdaLine s.remoteLow

end Sys2Proof.Machine
end

