-- ==== Sys2Proof/Machine/Operands.lean ====
section
/-! DEFINITION. Every operand form and computation of the block (R73, R158): the wire command bytes, the clamp, the decimal digits and the rendered frame. -/

namespace Sys2Proof.Machine

/-- Frame register or digit register `i` (R11 `F[i]`). -/
def Frame.get (f : Frame) (i : BitVec 2) : Byte :=
  match i.toNat with
  | 0 => f.b0
  | 1 => f.b1
  | 2 => f.b2
  | _ => f.b3

/-- `F[i] <- v` (R11). -/
def Frame.set (f : Frame) (i : BitVec 2) (v : Byte) : Frame :=
  match i.toNat with
  | 0 => { f with b0 := v }
  | 1 => { f with b1 := v }
  | 2 => { f with b2 := v }
  | _ => { f with b3 := v }

/-- The bytes of a frame in wire order (R53). -/
def Frame.toList (f : Frame) : List Byte := [f.b0, f.b1, f.b2, f.b3]

/-- `DP_MASK` (R8). -/
def dpMask : Byte := 0x80#8

/-- `CMD_DATA_AUTO` (R8, R130, D11). -/
def cmdDataAuto : Byte := 0x40#8

/-- `CMD_ADDR | off` (R130, R158). -/
def addrByte (off : BitVec 2) : Byte := 0xC0#8 ||| off.setWidth 8

/-- `min(l, 7)`, an unsigned comparison over all 8 bits (R137, R158, D32). -/
def clampLevel (l : Byte) : Byte := if l ≤ 7#8 then l else 7#8

/-- `CMD_CTRL_ON | min(l, 7)` (R130, R137). -/
def ctrlByte (l : Byte) : Byte := 0x88#8 ||| clampLevel l

/-- The decimal digit `d_i` of a value: four steps of `mod 10`, `div 10` (R153). -/
def digit (value : BitVec 16) (i : Nat) : Nat := value.toNat / 10 ^ i % 10

/-- Leading-zero blanking (R154): the codes of the given digits, most significant first, the last one always shown;
`sup` is the suppression flag. -/
def blankLeading (t : SegTable) : (sup : Bool) → List Nat → List Byte
  | _, [] => []
  | _, [d] => [segCode t d]
  | sup, d :: e :: ds =>
    if sup ∧ d = 0 then segCode t blankIdx :: blankLeading t true (e :: ds)
    else segCode t d :: blankLeading t false (e :: ds)

/-- The digits of a value from `d3` to `d0` (R153, R154). -/
def digitsMsbFirst (value : BitVec 16) : List Nat :=
  [digit value 3, digit value 2, digit value 1, digit value 0]

/-- The colon bit (R155): bit 7 of `out[1]`, the second byte, and of no other. -/
def withColon (colon : BitVec 1) (out : Frame) : Frame :=
  if colon = 1#1 then { out with b1 := out.b1 ||| dpMask } else out

/-- A list of four bytes as a frame. -/
def frameOfList (l : List Byte) : Frame := ⟨l.getD 0 0#8, l.getD 1 0#8, l.getD 2 0#8, l.getD 3 0#8⟩

/-- `RenderFrame(value, colon)` (R156) over the table `SEG`. -/
def renderFrame (t : SegTable) (value : BitVec 16) (colon : BitVec 1) : Frame :=
  withColon colon (frameOfList (blankLeading t true (digitsMsbFirst value)))

/-- A byte from its bits in arrival order, bit 0 first (R52, R56). -/
def byteOfBits (bits : List Bool) : Byte :=
  BitVec.ofNat 8 (bits.foldr (fun b n => b.toNat + 2 * n) 0)

end Sys2Proof.Machine
end

