-- ==== Sys2Proof/Machine/Ops.lean ====
section
/-! DEFINITION. The named operations over the state: performing a pin action (R101 to R105), reading the wire (R56),
accepting a command word (R34), an illegal word (R77), reset (R200, R201), the host's moves, the remote device's
registers (R58). The block has no exception entry and no return (R180, R186, R187), so there is no such operation. -/

namespace Sys2Proof.Machine

/-- One step after another: the second runs where the first gives a next state. -/
def andThen (o : Host.Outcome State Fault Refusal) (k : State → Host.Outcome State Fault Refusal) :
    Host.Outcome State Fault Refusal :=
  match o with
  | .next s => k s
  | .fault r => .fault r
  | .refused r => .refused r

/-- The effect of an action on the pins (R101, R102, R103); `DLY` and `SMP` have none (R104, R105). -/
def Pins.apply (p : Pins) : PinAction → Pins
  | .clk b => { p with clkOut := b }
  | .dio b => { p with dioOut := b }
  | .mode m => { p with dioMode := m }
  | .dly => p
  | .smp => p

/-- The pins after a list of actions. -/
def Pins.applyAll (p : Pins) (l : List PinAction) : Pins := l.foldl Pins.apply p

/-- The wire event of an action at a pin state (R56). -/
def wireEvent (p : Pins) (a : PinAction) : Option WireEvent :=
  let q := p.apply a
  match p.clkOut, q.clkOut with
  | true, true =>
    if p.masterSda ∧ ¬ q.masterSda then some .start
    else if ¬ p.masterSda ∧ q.masterSda then some .stop
    else none
  | false, true => if q.dioMode = .outOd then some (.bit q.masterSda) else some .ackSlot
  | _, false => none

/-- The wire events of a list of actions from a pin state (R56). -/
def wireEvents : Pins → List PinAction → List WireEvent
  | _, [] => []
  | p, a :: l => (wireEvent p a).toList ++ wireEvents (p.apply a) l

/-- Closing the open transaction drops its pending bits (R56, `S` and `P`). -/
def Rx.close (r : Rx) : Rx :=
  match r.txn with
  | none => r
  | some t => ⟨none, r.closed ++ [t.bytes]⟩

/-- What the reader of R56 does with one event. -/
def Rx.feed (r : Rx) : WireEvent → Rx
  | .start => { r.close with txn := some ⟨[], []⟩ }
  | .stop => r.close
  | .bit b =>
    match r.txn with
    | none => r
    | some t => { r with txn := some { t with bits := t.bits ++ [b] } }
  | .ackSlot =>
    match r.txn with
    | none => r
    | some t =>
      if t.bits.length = 8 then { r with txn := some ⟨[], t.bytes ++ [byteOfBits t.bits]⟩ } else r

/-- What the reader does with a list of events. -/
def Rx.feedAll (r : Rx) (es : List WireEvent) : Rx := es.foldl Rx.feed r

/-- `Tx` (R56): a list of actions read as wire transactions, from a pin state. -/
def tx (p : Pins) (l : List PinAction) : List (List Byte) := (Rx.empty.feedAll (wireEvents p l)).closed

/-- `perform(a)` on the block's state (R101 to R105). `SMP` consumes one scripted answer, whoever answers. -/
def State.perform (s : State) (a : PinAction) : State :=
  match a with
  | .clk b => { s with pins := s.pins.apply (.clk b) }
  | .dio b => { s with pins := s.pins.apply (.dio b) }
  | .mode m => { s with pins := s.pins.apply (.mode m) }
  | .dly => s
  | .smp => { s with ack := ackOf s.lineRead, answers := s.answers.tail, draws := s.draws + 1 }

/-- The trace entry of an action (R36): `SMP` is paired with the level it read. -/
def State.entry (s : State) (a : PinAction) : TraceEntry :=
  match a with
  | .smp => ⟨.smp, some s.lineRead⟩
  | a => ⟨a, none⟩

/-- The remote device's receiver hears the wire event of an action, if it makes one (R56). -/
def Device.hear (d : Device) (e : Option WireEvent) : Device :=
  { d with rx := d.rx.feedAll e.toList }

/-- The body of an act step (R33): perform the action, extend the trace, `UPC <- UPC + 1`; the wire carries its event
to the remote device. -/
def State.act (s : State) (a : PinAction) : State :=
  { s.perform a with
    hist := s.entry a :: s.hist
    upc := s.upc + 1
    dev := s.dev.hear (wireEvent s.pins a) }

/-- The trace in the order of R36, oldest entry first. -/
def State.trace (s : State) : List TraceEntry := s.hist.reverse

/-- The actions of the trace, oldest first. -/
def State.performed (s : State) : List PinAction := s.trace.map TraceEntry.act

/-- Accepting the legal word `cw` whose action list is `acts` (R34): `ILL <- 0`, `CUR` latches the word and `F` as it
stands, `UPC <- 0`, `UPC_END <- length(Actions(CUR))`. -/
def State.latch (s : State) (cw : Word) (acts : List PinAction) : State :=
  { s with
    ill := false
    cur := ⟨cw, s.f⟩
    upc := 0#9
    upcEnd := BitVec.ofNat 9 acts.length }

/-- The accept step of a legal word after its immediate effect (R34). A block that is busy does not accept: the host is
held and nothing changes. -/
def accept (s : State) (immediate : State → State) (cw : Word) (acts : List PinAction) :
    Host.Outcome State Fault Refusal :=
  if s.busy then .next s else .next ((immediate s).latch cw acts)

/-- The accept step of an illegal word (R77): `ILL <- 1`, nothing else; a busy block does not accept. -/
def acceptIllegal (s : State) : State := if s.busy then s else { s with ill := true }

/-- The receiver of instance `inst` after the pins jump at reset: the wire carries any events (R201, U5). -/
def Device.jump (d : Device) (inst : Nat) : Device :=
  { d with rx := d.rx.feedAll (Config.resetWire inst d.draws), draws := d.draws + 1 }

/-- A step with `rst = 1` (R200): the block's state becomes the reset state, a running command is abandoned (R201), the
trace restarts (R38). The remote device is not reset (R202); if the pins move it hears any wire events. The environment's
inputs go on, and the instance's parameters stay. -/
def State.applyReset (s : State) : State :=
  { State.reset with
    host := s.host
    answers := s.answers
    draws := s.draws
    dev := if s.pins = Pins.idle then s.dev else s.dev.jump s.inst
    seg := s.seg
    inst := s.inst
    responder := s.responder }

/-- What the block does in a step (R33, R34, R200). -/
inductive BlockWork where
  | reset
  | act
  | accept (w : Word)
  | wait
  deriving DecidableEq, Repr, Inhabited

/-- Which of the step kinds is enabled: reset overrides both (R200), a busy block acts (R33), an idle one accepts the
presented word (R34) or waits. -/
def blockWork (s : State) : BlockWork :=
  match s.host with
  | .rst :: _ => .reset
  | .quiet :: _ => if s.busy then .act else .wait
  | .present w :: _ => if s.busy then .act else .accept w
  | [] => if s.busy then .act else .wait

/-- The host's move is used up by the step, but for a word presented to a busy block, which is held (R34). -/
def State.hostMoved (s : State) : State :=
  match s.host with
  | .rst :: rest => { s with host := rest }
  | .quiet :: rest => { s with host := rest }
  | .present w :: rest => if s.busy then { s with host := .present w :: rest } else { s with host := rest }
  | [] => s

/-- A frame of free values of instance `inst` at draw `n` (R58, U4, U13). -/
def freeFrame (inst n : Nat) : Frame :=
  ⟨Config.deviceReg inst n 0, Config.deviceReg inst n 1, Config.deviceReg inst n 2, Config.deviceReg inst n 3⟩

/-- The remote device after traffic the spec gives no effect of: any value (U13, U15). -/
def Device.anyValue (d : Device) (inst : Nat) : Device :=
  { d with
    mode := .undetermined
    dreg := freeFrame inst d.draws
    ctrl := Config.deviceCtrl inst d.draws
    draws := d.draws + 1 }

/-- The digit registers after traffic that leaves only them open: any value (R58). -/
def Device.anyDreg (d : Device) (inst : Nat) : Device :=
  { d with dreg := freeFrame inst d.draws, draws := d.draws + 1 }

/-- The oldest closed transaction, which the device acts on next, is used up. -/
def Device.pop (d : Device) : Device := { d with rx := { d.rx with closed := d.rx.closed.tail } }

/-- The bytes that follow the command byte in the transaction the device acts on. -/
def Device.dataBytes (d : Device) : List Byte := (d.rx.closed.headD []).tail

/-- `DREG[i]` after the data bytes `ds` are written from address `a` on (R58): the byte `d_k` where `i = a + k`; where no
byte is addressed to `i`, the old byte, or any value if some byte was addressed past the fourth register (U4). DESIGN
CHOICE (log entry 18): a byte addressed past the fourth register may reach the registers below `a`, and never one from `a`
on, the control byte or the mode; where `a = 0` it has no effect. The spec leaves this open (R58, N6). -/
def dregAfter (a : Nat) (ds : List Byte) (old free : Byte) (i : Nat) : Byte :=
  if a ≤ i then
    match ds[i - a]? with
    | some d => d
    | none => old
  else if a + ds.length ≤ 4 then old else free

/-- The data bytes of a `[0xC0 + a, d0, d1, ...]` transaction written in auto-increment mode (R58). -/
def Device.writeAuto (d : Device) (inst a : Nat) (ds : List Byte) : Device :=
  let free := freeFrame inst d.draws
  { d with
    dreg :=
      ⟨dregAfter a ds d.dreg.b0 free.b0 0, dregAfter a ds d.dreg.b1 free.b1 1,
       dregAfter a ds d.dreg.b2 free.b2 2, dregAfter a ds d.dreg.b3 free.b3 3⟩
    draws := d.draws + 1 }

/-- What the remote device has to do with its oldest closed transaction (R56, R58). -/
inductive DeviceWork where
  /-- no transaction is closed. -/
  | none
  /-- an empty transaction: it changes nothing (R58, R66). -/
  | empty
  /-- the transaction's first byte is the command byte of this instruction. -/
  | run (i : Instr)
  /-- the byte 0x80 alone: display off (R136, GK4; PRESUMED, log entry 8). -/
  | displayOff
  /-- any other first byte: the device's reaction is any value (U13). -/
  | other
  deriving DecidableEq, Repr, Inhabited

/-- Reading the oldest closed transaction (R58, R79). -/
def deviceWork (d : Device) : DeviceWork :=
  match d.rx.closed with
  | [] => .none
  | [] :: _ => .empty
  | (b :: ds) :: _ =>
    match decode (.wire b) with
    | .ok i => .run i
    | .error _ => if b = 0x80#8 ∧ ds = [] then .displayOff else .other

/-- The device's reaction to an empty transaction (R58). -/
def State.deviceEmpty (s : State) : State := { s with dev := s.dev.pop }

/-- The device's reaction to the display-off byte (GK4). -/
def State.deviceOff (s : State) : State := { s with dev := { s.dev.pop with ctrl := 0x80#8 } }

/-- The device's reaction to a byte of unknown meaning (U13). -/
def State.deviceOther (s : State) : State := { s with dev := s.dev.pop.anyValue s.inst }

/-- Presenting a host command word to an idle block, as the next thing the host does: a running command is taken as done
(`UPC` put at `UPC_END`), everything else stays. -/
def State.placeWord (s : State) (w : Word) : State :=
  { s with
    upc := if s.busy then s.upcEnd else s.upc
    host := .present w :: s.host }

/-- Closing a transaction of these bytes on the wire, as the next one the remote device acts on. -/
def State.placeTxn (s : State) (bytes : List Byte) : State :=
  { s with dev := { s.dev with rx := { s.dev.rx with closed := bytes :: s.dev.rx.closed } } }

end Sys2Proof.Machine
end

