-- ==== Sys2Proof/Machine/Bus.lean ====
section
/-! DEFINITION. The bus primitives (spec/40_bus_primitives.md): the lists `Start()`, `Stop()`, `SendByte(v)` and the
commands START, STOP, SENDB. -/

namespace Sys2Proof.Machine

/-- `Start()` (R106), 7 actions. -/
def startList : List PinAction :=
  [.clk true, .dio true, .dly, .dio false, .dly, .clk false, .dly]

/-- `Stop()` (R108), 7 actions. -/
def stopList : List PinAction :=
  [.clk false, .dio false, .dly, .clk true, .dly, .dio true, .dly]

/-- `Bit(b)` (R110), 6 actions. -/
def bitList (b : Bool) : List PinAction :=
  [.clk false, .dly, .dio b, .dly, .clk true, .dly]

/-- Steps 2 to 7 of `SendByte` (R110): the acknowledgment slot, 10 actions. -/
def ackList : List PinAction :=
  [.clk false, .dly, .mode .inPu, .dly, .clk true, .dly, .smp, .clk false, .dly, .mode .outOd]

/-- `SendByte(v)` (R110), 58 actions, bit 0 first (R52). -/
def sendByte (v : Byte) : List PinAction :=
  bitList (v.getLsbD 0) ++ bitList (v.getLsbD 1) ++ bitList (v.getLsbD 2) ++ bitList (v.getLsbD 3)
    ++ bitList (v.getLsbD 4) ++ bitList (v.getLsbD 5) ++ bitList (v.getLsbD 6) ++ bitList (v.getLsbD 7)
    ++ ackList

/-- The action list of START (R78, R107). -/
def actionsStart : List PinAction := startList

/-- The action list of STOP (R78, R109). -/
def actionsStop : List PinAction := stopList

/-- The action list of SENDB (R78, R111). -/
def actionsSendb (imm8 : Byte) : List PinAction := sendByte imm8

/-- START (R107): no immediate effect; the accept step latches the command. -/
def execStart (s : State) : Host.Outcome State Fault Refusal :=
  accept s id (encodeWord .start) actionsStart

/-- STOP (R109). -/
def execStop (s : State) : Host.Outcome State Fault Refusal :=
  accept s id (encodeWord .stop) actionsStop

/-- SENDB (R111). -/
def execSendb (imm8 : Byte) (s : State) : Host.Outcome State Fault Refusal :=
  accept s id (encodeWord (.sendb imm8)) (actionsSendb imm8)

end Sys2Proof.Machine
end

