-- ==== Sys2Proof/Machine/Display.lean ====
section
/-! DEFINITION. The display protocol (spec/41_display_protocol.md): the lists `Wrf(off, f)` and `Brt(l)` and the commands
SETF, WRF, BRT. -/

namespace Sys2Proof.Machine

/-- `Wrf(off, f)` (R134), 376 actions: the address mode in its own transaction (R208), then address and four bytes. -/
def wrfList (off : BitVec 2) (f : Frame) : List PinAction :=
  startList ++ sendByte cmdDataAuto ++ stopList
    ++ (startList ++ sendByte (addrByte off)
      ++ sendByte f.b0 ++ sendByte f.b1 ++ sendByte f.b2 ++ sendByte f.b3
      ++ stopList)

/-- `Brt(l)` (R137), 72 actions. -/
def brtList (l : Byte) : List PinAction := startList ++ sendByte (ctrlByte l) ++ stopList

/-- The action list of SETF is empty (R78, R131). -/
def actionsSetf : List PinAction := []

/-- The action list of WRF for the frame latched at acceptance (R78, R135). -/
def actionsWrf (off : BitVec 2) (f : Frame) : List PinAction := wrfList off f

/-- The action list of BRT (R78, R138). -/
def actionsBrt (imm8 : Byte) : List PinAction := brtList imm8

/-- SETF (R131): `F[idx] <- imm8` at acceptance. -/
def execSetf (idx : BitVec 2) (imm8 : Byte) (s : State) : Host.Outcome State Fault Refusal :=
  accept s (fun t => { t with f := t.f.set idx imm8 }) (encodeWord (.setf idx imm8)) actionsSetf

/-- WRF (R135): sends the frame registers as they stand at acceptance. -/
def execWrf (off : BitVec 2) (s : State) : Host.Outcome State Fault Refusal :=
  accept s id (encodeWord (.wrf off)) (actionsWrf off s.f)

/-- BRT (R138). -/
def execBrt (imm8 : Byte) (s : State) : Host.Outcome State Fault Refusal :=
  accept s id (encodeWord (.brt imm8)) (actionsBrt imm8)

end Sys2Proof.Machine
end

