-- ==== Sys2Proof/Machine/Init.lean ====
section
/-! DEFINITION. Initialisation (spec/43_initialization.md): the command INIT. -/

namespace Sys2Proof.Machine

/-- The blank frame of INIT: four times `SEG[BLANK_IDX]` (R170). -/
def blankFrame (t : SegTable) : Frame :=
  ⟨segCode t blankIdx, segCode t blankIdx, segCode t blankIdx, segCode t blankIdx⟩

/-- `BRT_MAX` (R8). -/
def brtMax : Byte := 7#8

/-- The action list of INIT (R78, R170), 448 actions. -/
def actionsInit (t : SegTable) : List PinAction := wrfList 0#2 (blankFrame t) ++ brtList brtMax

/-- INIT (R170): `F` and `RES` are neither read nor written. -/
def execInit (s : State) : Host.Outcome State Fault Refusal :=
  accept s id (encodeWord .init) (actionsInit s.seg)

end Sys2Proof.Machine
end

