-- ==== Sys2Proof/Machine/Render.lean ====
section
/-! DEFINITION. The table and the decimal render (spec/42_decimal_render.md): the commands LUT and REND. -/

namespace Sys2Proof.Machine

/-- The action list of LUT is empty (R78, R152). -/
def actionsLut : List PinAction := []

/-- The action list of REND (R78, R157): the rendered frame at offset 0; it does not touch `F` (R21, C9). -/
def actionsRend (t : SegTable) (value : BitVec 16) (colon : BitVec 1) : List PinAction :=
  wrfList 0#2 (renderFrame t value colon)

/-- LUT (R152): `RES <- SEG[lidx]` at acceptance. An index the table lacks (11..15) is not this command but an illegal
word (R76, U6). -/
def execLut (lidx : BitVec 4) (s : State) : Host.Outcome State Fault Refusal :=
  match segRead s.seg lidx.toNat with
  | some code => accept s (fun t => { t with res := code }) (encodeWord (.lut lidx)) actionsLut
  | none => .next (acceptIllegal s)

/-- REND (R157). -/
def execRend (value : BitVec 16) (colon : BitVec 1) (s : State) : Host.Outcome State Fault Refusal :=
  accept s id (encodeWord (.rend value colon)) (actionsRend s.seg value colon)

end Sys2Proof.Machine
end

