-- ==== Sys2Proof/Machine/Actions.lean ====
section
/-! DEFINITION. `Actions(CUR)` (R78), the act step (R33) and the big-step form (R35). -/

namespace Sys2Proof.Machine

/-- The action list of an instruction, the frame bytes latched with it and the table `SEG` (R78). A wire command byte is no host command
and has none. -/
def commandActions (t : SegTable) (i : Instr) (f : Frame) : List PinAction :=
  match i with
  | .start => actionsStart
  | .stop => actionsStop
  | .sendb imm8 => actionsSendb imm8
  | .setf _ _ => actionsSetf
  | .wrf off => actionsWrf off f
  | .brt imm8 => actionsBrt imm8
  | .rend value colon => actionsRend t value colon
  | .init => actionsInit t
  | .lut _ => actionsLut
  | .wDataAuto | .wDataFixed | .wAddr _ | .wCtrlOn _ => []

/-- `Actions(CUR)` (R78) over the table `SEG`. A word that is no legal command, which `CUR` never latches, has no action. -/
def actions (t : SegTable) (c : Cur) : List PinAction :=
  match decode (.word c.word) with
  | .ok i => commandActions t i c.frame
  | .error _ => []

/-- The act step (R33): the action at `UPC`. -/
def actStep (s : State) : Host.Outcome State Fault Refusal :=
  match (actions s.seg s.cur)[s.upc.toNat]? with
  | some a => .next (s.act a)
  | none => .fault .noAction

/-- A number of act steps, one after the other (R35). -/
def actSteps : Nat → State → Host.Outcome State Fault Refusal
  | 0, s => .next s
  | n + 1, s => andThen (actStep s) (actSteps n)

/-- A list of actions performed one after the other, each as in an act step. -/
def State.actAll (s : State) (l : List PinAction) : State := l.foldl State.act s

/-- The actions of the command in progress that are still to come. -/
def State.remaining (s : State) : List PinAction := (actions s.seg s.cur).drop s.upc.toNat

/-- Big step (R35): the command in progress performed to its last action. -/
def State.complete (s : State) : State := s.actAll s.remaining

end Sys2Proof.Machine
end

