-- ==== Sys2Proof/Machine/Wire.lean ====
section
/-! DEFINITION. The four wire command bytes (R79, R130, R133), as the reference remote device acts on them (R58). Each
uses up the transaction whose first byte it is; the bytes after it are its data. They never touch the block. -/

namespace Sys2Proof.Machine

/-- A command byte that stands alone in its transaction: its effect on the device, or any value if bytes follow it,
which the spec gives no meaning (R58, U13). -/
def State.deviceAlone (s : State) (effect : Device → Device) : State :=
  { s with dev := if s.dev.dataBytes = [] then effect s.dev.pop else s.dev.pop.anyValue s.inst }

/-- W_DATA_AUTO, 0x40 (R130, R58): selects auto-increment address mode. -/
def execWDataAuto (s : State) : Host.Outcome State Fault Refusal :=
  .next (s.deviceAlone fun d => { d with mode := .autoInc })

/-- W_DATA_FIXED, 0x44 (R133): the data command for fixed addresses (GK3; PRESUMED, log entry 8): selects that mode. -/
def execWDataFixed (s : State) : Host.Outcome State Fault Refusal :=
  .next (s.deviceAlone fun d => { d with mode := .fixedAddr })

/-- W_ADDR, `0xC0 | off` (R130, R58): in auto-increment mode the data bytes go to `DREG[off]` on; in another mode the
spec does not say where they go, and the digit registers hold any value; that the mode and the control byte stay is DESIGN
CHOICE (log entries 6, 18). -/
def execWAddr (off : BitVec 2) (s : State) : Host.Outcome State Fault Refusal :=
  .next { s with
    dev :=
      if s.dev.mode = .autoInc then s.dev.pop.writeAuto s.inst off.toNat s.dev.dataBytes
      else s.dev.pop.anyDreg s.inst }

/-- W_CTRL_ON, `0x88 | lvl` (R130, R58): display on at brightness `lvl`. -/
def execWCtrlOn (lvl : BitVec 3) (s : State) : Host.Outcome State Fault Refusal :=
  .next (s.deviceAlone fun d => { d with ctrl := 0x88#8 ||| lvl.setWidth 8 })

end Sys2Proof.Machine
end

