-- ==== Sys2Proof/Machine/Dispatch.lean ====
section
/-! DEFINITION. The meaning of every instruction: one arm per constructor of Instr. -/

namespace Sys2Proof.Machine

/-- The instruction's step: for a host command its accept step (R34), for a wire command byte the remote device's
reaction to the transaction it heads (R58). -/
def exec (i : Instr) (s : State) : Host.Outcome State Fault Refusal :=
  match i with
  | .start => Sys2Proof.Machine.execStart s
  | .stop => Sys2Proof.Machine.execStop s
  | .sendb imm8 => Sys2Proof.Machine.execSendb imm8 s
  | .setf idx imm8 => Sys2Proof.Machine.execSetf idx imm8 s
  | .wrf off => Sys2Proof.Machine.execWrf off s
  | .brt imm8 => Sys2Proof.Machine.execBrt imm8 s
  | .rend value colon => Sys2Proof.Machine.execRend value colon s
  | .init => Sys2Proof.Machine.execInit s
  | .lut lidx => Sys2Proof.Machine.execLut lidx s
  | .wDataAuto => Sys2Proof.Machine.execWDataAuto s
  | .wDataFixed => Sys2Proof.Machine.execWDataFixed s
  | .wAddr off => Sys2Proof.Machine.execWAddr off s
  | .wCtrlOn lvl => Sys2Proof.Machine.execWCtrlOn lvl s

end Sys2Proof.Machine
end

