-- ==== Sys2Proof/Machine/Step.lean ====
section
/-! DEFINITION. One step of the machine: the remote device acts on a closed transaction, if there is one, and the block
takes its step (reset, act, accept or wait). -/

namespace Sys2Proof.Machine

/-- The remote device's part of a step (R58): it acts on its oldest closed transaction. -/
def deviceStep (s : State) : Host.Outcome State Fault Refusal :=
  match deviceWork s.dev with
  | .none => .next s
  | .empty => .next s.deviceEmpty
  | .run i => exec i s
  | .displayOff => .next s.deviceOff
  | .other => .next s.deviceOther

/-- The accept step on a presented word (R34): a legal word runs its command, an illegal one sets `ILL` (R77). -/
def acceptWord (w : Word) (s : State) : Host.Outcome State Fault Refusal :=
  match decode (.word w) with
  | .ok i => exec i s
  | .error _ => .next (acceptIllegal s)

/-- The block's part of a step (R33, R34, R200). -/
def blockStep (s : State) : Host.Outcome State Fault Refusal :=
  match blockWork s with
  | .reset => .next s.hostMoved.applyReset
  | .act => actStep s.hostMoved
  | .accept w => acceptWord w s.hostMoved
  | .wait => .next s.hostMoved

/-- One step. The two agents are independent (R7); the device's part is taken first. -/
def step (s : State) : Host.Outcome State Fault Refusal := andThen (deviceStep s) blockStep

/-- The state in which the next step runs the instruction of a table row's bits: a 32-bit row is the word the host
presents to an idle block; an 8-bit row is the first byte of the transaction the remote device acts on next. A word of
any other width is presented as it is. -/
def State.withFetchWord (s : State) (nbits w : Nat) : State :=
  if nbits = 8 then s.placeTxn [BitVec.ofNat 8 w] else s.placeWord (BitVec.ofNat 32 w)

end Sys2Proof.Machine
end

