-- ==== Sys2Proof/Machine/Assembler.lean ====
section
/-! DEFINITION. The assembler lines of R82 with their operand ranges, and the pseudo-commands of R83. -/

namespace Sys2Proof.Machine

/-- A line of R82; operands are the numbers as written. -/
inductive AsmLine where
  | start
  | stop
  | sendb (imm8 : Nat)
  | setf (idx imm8 : Nat)
  | wrf (off : Nat)
  | brt (level : Nat)
  | rend (value colon : Nat)
  | init
  | lut (lidx : Nat)
  deriving DecidableEq, Repr

/-- The command of a line; an operand out of its range is an assembly error, `none` (R82). -/
def asmInstr : AsmLine → Option Instr
  | .start => some .start
  | .stop => some .stop
  | .sendb v => if v ≤ 255 then some (.sendb (BitVec.ofNat 8 v)) else none
  | .setf i v => if i ≤ 3 ∧ v ≤ 255 then some (.setf (BitVec.ofNat 2 i) (BitVec.ofNat 8 v)) else none
  | .wrf o => if o ≤ 3 then some (.wrf (BitVec.ofNat 2 o)) else none
  | .brt v => if v ≤ 255 then some (.brt (BitVec.ofNat 8 v)) else none
  | .rend v c => if v ≤ 65535 ∧ c ≤ 1 then some (.rend (BitVec.ofNat 16 v) (BitVec.ofNat 1 c)) else none
  | .init => some .init
  | .lut l => if l ≤ 10 then some (.lut (BitVec.ofNat 4 l)) else none

/-- The word of a line (R82). -/
def assemble (l : AsmLine) : Option Word := (asmInstr l).map encodeWord

/-- `RAW b` (R83). -/
def pseudoRaw (b : Byte) : List Instr := [.start, .sendb b, .stop]

/-- `SETFRAME b0, b1, b2, b3` (R83). -/
def pseudoSetframe (f : Frame) : List Instr := [.setf 0#2 f.b0, .setf 1#2 f.b1, .setf 2#2 f.b2, .setf 3#2 f.b3]

/-- `SHOW b0, b1, b2, b3` (R83). -/
def pseudoShow (f : Frame) : List Instr := pseudoSetframe f ++ [.wrf 0#2]

/-- `BLANK` (R83). -/
def pseudoBlank : List Instr := pseudoShow Frame.zero

/-- `IDLE` (R83). -/
def pseudoIdle : List Instr := [.start, .stop]

end Sys2Proof.Machine
end

