-- ==== Sys2Proof/Machine/Ports.lean ====
section
/-! DEFINITION. The output ports of the block (R37) and the data line input. -/

namespace Sys2Proof.Machine

/-- The output ports of R37 but for clock and reset. -/
structure Ports where
  cmdReady : Bool
  busy : Bool
  ack : Bool
  ill : Bool
  res : Byte
  sclO : Bool
  dioO : Bool
  dioMode : PinMode
  deriving DecidableEq, Repr

/-- `rst` in this step: the host's next move asserts it (R200). -/
def State.rstNow (s : State) : Bool :=
  match s.host with
  | .rst :: _ => true
  | .present _ :: _ | .quiet :: _ | [] => false

/-- The output ports (R37): `cmd_ready = not BUSY`, and 0 while `rst = 1` (R200). -/
def State.ports (s : State) : Ports :=
  { cmdReady := !s.busy && !s.rstNow
    busy := s.busy
    ack := s.ack
    ill := s.ill
    res := s.res
    sclO := s.pins.sclLine
    dioO := s.pins.dioOut
    dioMode := s.pins.dioMode }

/-- The input `dio_i` (R37): `SDA_LINE`, while the remote device pulls the line low or not. -/
def State.dioI (s : State) (remoteLow : Bool) : Bool := s.pins.sdaLine remoteLow

/-- The pads' rule of R37: the data pin is driven low iff `dio_mode = 0` and `dio_o = 0`. -/
def Ports.padLow (p : Ports) : Bool := decide (p.dioMode = .outOd) && !p.dioO

end Sys2Proof.Machine
end

