-- ==== Sys2Proof/Machine/Sequence.lean ====
section
/-! DEFINITION. Whole commands in the big-step form (R35): a command accepted and performed to its last action, and a
sequence of them. -/

namespace Sys2Proof.Machine

/-- One command whole (R35): its accept step, then all its act steps. -/
def runCommand (i : Instr) (s : State) : Host.Outcome State Fault Refusal :=
  andThen (exec i s) fun t => .next t.complete

/-- A sequence of commands, each whole before the next (R35). -/
def runCommands : List Instr → State → Host.Outcome State Fault Refusal
  | [], s => .next s
  | i :: is, s => andThen (runCommand i s) (runCommands is)

end Sys2Proof.Machine
end

