-- ==== Sys2Proof/Machine/System.lean ====
section
/-! DEFINITION. Several instances (R64, R191): a list of independent states, all alike at reset, of which one steps at a
time. -/

namespace Sys2Proof.Machine

/-- The system after reset: `N_INST` instances, all alike but for their numbers, which name their pin pairs and their own
free values (R191; DESIGN CHOICE, log entries 15, 17). -/
def systemReset : List State := (List.range Config.nInst).map fun k => { State.reset with inst := k }

/-- The clock pin and the data pin of an instance (R9 `PIN_PAIR`). -/
def State.pinPair (s : State) : Nat × Nat := Config.pinPair s.inst

/-- Instance `k` takes a step; the others stay. An instance that does not exist takes none. -/
def systemStep (sys : List State) (k : Nat) : Host.Outcome (List State) Fault Refusal :=
  match sys[k]? with
  | none => .next sys
  | some s =>
    match step s with
    | .next t => .next (sys.set k t)
    | .fault r => .fault r
    | .refused r => .refused r

end Sys2Proof.Machine
end

