-- ==== Sys2Proof/Machine/Timing.lean ====
section
/-! DEFINITION. Lengths of action lists (R114, R213) and the bound on the delay unit (R212). The machine has no time; no
step depends on this file. -/

namespace Sys2Proof.Machine

/-- What kind of action it is, without its level (R112). -/
inductive ActionKind where
  | clk
  | dio
  | mode
  | dly
  | smp
  deriving DecidableEq, Repr

/-- The kind of an action. -/
def kindOf : PinAction → ActionKind
  | .clk _ => .clk
  | .dio _ => .dio
  | .mode _ => .mode
  | .dly => .dly
  | .smp => .smp

/-- Number of delay units of a list (R213). -/
def delayUnits (l : List PinAction) : Nat := l.countP fun a => decide (a = .dly)

/-- Number of samples of a list (R213). -/
def sampleCount (l : List PinAction) : Nat := l.countP fun a => decide (a = .smp)

/-- Number of `CLK(1)` actions of a list (V-C1). -/
def clkHighCount (l : List PinAction) : Nat := l.countP fun a => decide (a = .clk true)

/-- Number of rising edges of the clock line while a list is performed from a pin state (R213). -/
def risingEdges : Pins → List PinAction → Nat
  | _, [] => 0
  | p, a :: l => (if ¬ p.clkOut ∧ (p.apply a).clkOut then 1 else 0) + risingEdges (p.apply a) l

/-- The levels that the `DIO` actions of a list give the data pin, in order (R111). -/
def dioLevels (l : List PinAction) : List Bool :=
  l.filterMap fun a =>
    match a with
    | .dio b => some b
    | .clk _ | .mode _ | .dly | .smp => none

/-- Clock cycles a list's delays take (R189): each `DLY` is `DELAY_TICKS` cycles; drive actions have no duration (R100). -/
def delayCycles (l : List PinAction) : Nat := delayUnits l * Config.delayTicks

/-- The bound of R212: one wire clock period is three delay units and lasts at least 4 us, that is
`3 * DELAY_TICKS / f_clk >= 1 / 250 kHz`. -/
def clockBoundHolds (delayTicks clockHz : Nat) : Bool := decide (clockHz ≤ 3 * delayTicks * 250000)

end Sys2Proof.Machine
end

