-- ==== Sys2Proof/Safety.lean ====
section
/-! DEFINITION. The invariants and the safety conditions claims are stated in: the sequencer agrees with its command
(R22, R40), the pins and `ACK` agree with the trace (R36, R23), a list respects the hazards (R204, R205), and when two
states agree on the block. -/

namespace Sys2Proof.Machine

/-- The data pin mode after a list of actions. -/
def modeAfter (m : PinMode) (l : List PinAction) : PinMode :=
  l.foldl (fun m a => match a with | .mode m' => m' | .clk _ | .dio _ | .dly | .smp => m) m

/-- The sequencer agrees with its command: `UPC_END` is the length of `Actions(CUR)` (R22), `UPC` is not past it, and
the data pin mode is what the actions performed so far make of `OUT_OD` (R40). -/
def State.SeqInv (s : State) : Prop :=
  s.upcEnd.toNat = (actions s.seg s.cur).length ∧ s.upc.toNat ≤ s.upcEnd.toNat ∧
    s.pins.dioMode = modeAfter .outOd ((actions s.seg s.cur).take s.upc.toNat)

/-- The pins are what the trace makes of the reset pins (R36, R56). -/
def State.PinsInv (s : State) : Prop := s.pins = Pins.idle.applyAll s.performed

/-- The level of the most recent `SMP` of a trace kept newest first, if there is one. -/
def lastRead (hist : List TraceEntry) : Option Bool := hist.findSome? TraceEntry.read

/-- `ACK` is the result of the most recent `SMP`, 0 before the first (R23). -/
def State.AckInv (s : State) : Prop :=
  s.ack = match lastRead s.hist with
    | some line => ackOf line
    | none => false

/-- The newest entries of the trace are the actions of the command in progress performed so far, in list order (R61). -/
def State.TraceInv (s : State) : Prop :=
  (s.hist.take s.upc.toNat).reverse.map TraceEntry.act = (actions s.seg s.cur).take s.upc.toNat

/-- An action respects the hazards at a pin state: a mode switch only with the clock low (R103, R204); a data action only
in output mode (R102); a sample only in input mode with the clock high (R105). -/
def hazardFreeAt (p : Pins) : PinAction → Bool
  | .mode _ => !p.clkOut
  | .dio _ => decide (p.dioMode = .outOd)
  | .smp => decide (p.dioMode = .inPu) && p.clkOut
  | .clk _ | .dly => true

/-- Every action of a list respects the hazards where it is performed. -/
def hazardFree : Pins → List PinAction → Bool
  | _, [] => true
  | p, a :: l => hazardFreeAt p a && hazardFree (p.apply a) l

/-- The data actions of a list that are performed while the clock is high, by their position (R205). -/
def dioWhileHigh : Pins → Nat → List PinAction → List Nat
  | _, _, [] => []
  | p, n, a :: l =>
    (match a with
      | .dio _ => if p.clkOut then [n] else []
      | .clk _ | .mode _ | .dly | .smp => []) ++ dioWhileHigh (p.apply a) (n + 1) l

/-- The two states agree on everything but the remote device's registers and receiver. -/
def State.SameBlock (s t : State) : Prop := { s with dev := t.dev } = t

/-- The two states agree on what drives the sequencer and the pins: they may differ in the acknowledgment, in what the
trace read, in the coming answers and who gives them, in the remote device and in the instance's number. -/
def State.SameDrive (s t : State) : Prop :=
  s.f = t.f ∧ s.cur = t.cur ∧ s.upc = t.upc ∧ s.upcEnd = t.upcEnd ∧ s.pins = t.pins ∧ s.ill = t.ill ∧ s.res = t.res ∧
    s.performed = t.performed ∧ s.host = t.host ∧ s.seg = t.seg

/-- What the spec's source states of the contents of `SEG`: the entries 0, 1, 8 and the blank one (R9, R150), and that bit
7 of every entry is 0 (R51). -/
def sourced (t : SegTable) : Bool :=
  segCode t 0 == 0x3F#8 && segCode t 1 == 0x06#8 && segCode t 8 == 0x7F#8 && segCode t blankIdx == 0x00#8
    && t.toList.all fun c => !c.getLsbD 7

/-- No digit has the blank code. -/
def digitsShown (t : SegTable) : Bool := (List.range 10).all fun d => segCode t d != segCode t blankIdx

/-- The remote device's registers, apart from its receiver. -/
def Device.SameRegs (d e : Device) : Prop := d.mode = e.mode ∧ d.dreg = e.dreg ∧ d.ctrl = e.ctrl

/-- The answer to the k-th coming sample, counting from 0: of the oracle the scripted one, else the free value of that draw
(R27); of the mock an acknowledgment, and of the reference remote device too, if it receives the byte (R58). -/
def State.answerAt (s : State) (k : Nat) : Bool :=
  match s.responder with
  | .free => s.answers[k]?.getD (Config.remoteLow s.inst (s.draws + k))
  | .device | .mock => true

/-- The reference remote device would receive a byte sent now: the data pin is in output mode, a transaction is open and no
bit of another byte is pending (R56, R58). -/
def State.Receiving (s : State) : Prop := s.pins.dioMode = .outOd ∧ ∃ bytes, s.dev.rx.txn = some ⟨[], bytes⟩

/-- The instruction sends at least one byte, so that it takes a sample (R23, R180). -/
def sendsByte : Instr → Bool
  | .sendb _ | .wrf _ | .brt _ | .rend _ _ | .init => true
  | .start | .stop | .setf _ _ | .lut _ | .wDataAuto | .wDataFixed | .wAddr _ | .wCtrlOn _ => false

end Sys2Proof.Machine
end

