-- ==== Sys2Proof/Certificates/Slice0/Obligations.lean ====
section
/-! DEFINITION. The statements for the provers, rule by rule of spec/. A pin level is true for high; `s.performed` is the
list of the trace's actions, oldest first (R36); `s.answerAt k` is the answer to the k-th coming sample. The spec
marks R35, R40, R66, R78, R107, R109, R113, R159, R172, R173, R195, R213 and R214 as derived from its other rules. -/

open Sys2Proof Sys2Proof.Machine

/-! ### Reset -/

/-- R38: the reset values; `CUR` is unobservable: whatever it holds, no action is taken from it. -/
def Obligations.ResetStateAsSpecified : Prop :=
  State.reset.f = ⟨0x00#8, 0x00#8, 0x00#8, 0x00#8⟩ ∧ State.reset.upc = 0#9 ∧ State.reset.upcEnd = 0#9 ∧
  State.reset.busy = false ∧ State.reset.pins = ⟨true, true, .outOd⟩ ∧ State.reset.ack = false ∧
  State.reset.ill = false ∧ State.reset.res = 0x00#8 ∧ State.reset.trace = [] ∧
  ∀ (c : Cur) (h : List HostMove), blockWork { State.reset with cur := c, host := h } ≠ .act

/-- R200: a step with `rst = 1`, whatever the block is doing. -/
def Obligations.ResetStepRestoresBlock : Prop :=
  ∀ (s : State) (rest : List HostMove), s.host = .rst :: rest →
    s.ports.cmdReady = false ∧
    ∃ t, step s = .next t ∧ t.f = ⟨0x00#8, 0x00#8, 0x00#8, 0x00#8⟩ ∧ t.upc = 0#9 ∧ t.upcEnd = 0#9 ∧
      t.pins = ⟨true, true, .outOd⟩ ∧ t.ack = false ∧ t.ill = false ∧ t.res = 0x00#8 ∧ t.trace = [] ∧ t.host = rest

/-- R202: reset sends nothing and does not reset the remote device; where the pins do not move, it hears nothing. That it
may hear any events where they do move is R201's. -/
def Obligations.ResetLeavesRemoteDevice : Prop :=
  ∀ (s : State) (rest : List HostMove), s.host = .rst :: rest →
    ∃ t, blockStep s = .next t ∧ t.performed = [] ∧ t.dev.SameRegs s.dev ∧
      (s.pins = ⟨true, true, .outOd⟩ → t.dev = s.dev)

/-! ### The step -/

/-- R34, R35: an idle block that is presented a word which decodes to `i` takes the step `exec i`; the model's step adds
the remote device's part before it and uses up the host's move. -/
def Obligations.StepRunsPresentedCommand : Prop :=
  ∀ (s s1 : State) (w : Word) (rest : List HostMove) (i : Instr),
    s.busy = false → s.host = .present w :: rest → decode (.word w) = .ok i → deviceStep s = .next s1 →
      step s = exec i { s1 with host := rest }

/-- The model's step runs the wire command byte that heads the oldest closed transaction, then the block's part, which
an idle block without a host move leaves empty (log entry 3). -/
def Obligations.StepRunsWireCommand : Prop :=
  ∀ (s : State) (b : Byte) (ds : List Byte) (rest : List (List Byte)) (i : Instr),
    s.dev.rx.closed = (b :: ds) :: rest → decode (.wire b) = .ok i →
      step s = andThen (exec i s) blockStep ∧ (s.busy = false → s.host = [] → step s = exec i s)

/-- R33, R31: an act step performs exactly the action at `UPC`, extends the trace by it and advances `UPC` by one; the
word, the end and everything the host reads but `ACK` stay, and `ACK` changes only at `SMP`, to whether the line reads low.
Who pulls it low there is said by the last three clauses: the oracle of R27, the mock of R58, or the reference device of
R58 in the slot of a byte it has taken (log entry 19). -/
def Obligations.ActStepPerformsNextAction : Prop :=
  ∀ (s : State) (a : PinAction), s.busy = true → (∀ rest, s.host ≠ .rst :: rest) →
    (actions s.seg s.cur)[s.upc.toNat]? = some a →
      ∃ t, step s = .next t ∧ t.pins = s.pins.apply a ∧ t.trace = s.trace ++ [s.entry a] ∧ t.upc = s.upc + 1 ∧
        t.cur = s.cur ∧ t.upcEnd = s.upcEnd ∧ t.f = s.f ∧ t.ill = s.ill ∧ t.res = s.res ∧
        t.ack = (if a = .smp then !(s.pins.sdaLine s.remoteLow) else s.ack) ∧
        (s.responder = .free → s.remoteLow = s.answers.headD (Config.remoteLow s.inst s.draws)) ∧
        (s.responder = .mock → s.remoteLow = true) ∧
        (s.responder = .device → (s.remoteLow = true ↔ s.pins.dioMode = .inPu ∧ s.pins.clkOut = true ∧
          ∃ bytes, bytes ≠ [] ∧ s.dev.rx.txn = some ⟨[], bytes⟩))

/-- R34: a word presented to a busy block is held; it is neither accepted nor dropped and has no effect. -/
def Obligations.BusyBlockHoldsWord : Prop :=
  ∀ (s : State) (w : Word) (rest : List HostMove), s.SeqInv → s.busy = true → s.host = .present w :: rest →
    ∃ t, step s = .next t ∧ t.host = s.host ∧ t.cur = s.cur ∧ t.f = s.f ∧ t.res = s.res ∧ t.ill = s.ill ∧
      t.upc = s.upc + 1 ∧ t.upcEnd = s.upcEnd

/-- R77: an accepted illegal word sets `ILL` and changes nothing else of the block; a legal one clears `ILL`; levels
above 7 and values of 10000 and above are not illegal, but clamped and wrapped. -/
def Obligations.IllegalWordSetsIllOnly : Prop :=
  (∀ (s : State) (w : Word) (rest : List HostMove), s.busy = false → s.host = .present w :: rest → legal w = false →
    ∃ d, deviceStep s = .next { s with dev := d } ∧ step s = .next { s with host := rest, ill := true, dev := d }) ∧
  (∀ (s : State) (w : Word) (rest : List HostMove), s.busy = false → s.host = .present w :: rest → legal w = true →
    ∃ t, step s = .next t ∧ t.ill = false) ∧
  (∀ l : Byte, legal (0x60000000#32 ||| l.setWidth 32) = true) ∧
  (∀ (c : BitVec 1) (v : BitVec 16), legal (0x70000000#32 ||| (c.setWidth 32 <<< 16) ||| v.setWidth 32) = true) ∧
  (∀ (t : SegTable) (l : Byte) (f : Frame),
    commandActions t (.brt l) f = commandActions t (.brt (if l ≤ 7#8 then l else 7#8)) f) ∧
  (∀ (t : SegTable) (v : BitVec 16) (c : BitVec 1) (f : Frame),
    commandActions t (.rend v c) f = commandActions t (.rend (BitVec.ofNat 16 (v.toNat % 10000)) c) f)

/-! ### Encoding -/

/-- V-E1 and R79: words written out from the spec's encodings decode to the instructions they stand for. -/
def Obligations.SpecWordsDecode : Prop :=
  decode (.word 0x10000000#32) = .ok .start ∧ decode (.word 0x20000000#32) = .ok .stop ∧
  decode (.word 0x300000B2#32) = .ok (.sendb 0xB2#8) ∧ decode (.word 0x40000276#32) = .ok (.setf 2#2 0x76#8) ∧
  decode (.word 0x50000003#32) = .ok (.wrf 3#2) ∧ decode (.word 0x600000FF#32) = .ok (.brt 255#8) ∧
  decode (.word 0x7001FFFF#32) = .ok (.rend 65535#16 1#1) ∧ decode (.word 0x80000000#32) = .ok .init ∧
  decode (.word 0x9000000A#32) = .ok (.lut 10#4) ∧ decode (.wire 0x40#8) = .ok .wDataAuto ∧
  decode (.wire 0x44#8) = .ok .wDataFixed ∧ decode (.wire 0xC2#8) = .ok (.wAddr 2#2) ∧
  decode (.wire 0x8D#8) = .ok (.wCtrlOn 5#3)

/-- R70 to R76, R79: no operand bit of any instruction is lost in its code. -/
def Obligations.DecodeOfEncode : Prop :=
  ∀ i : Instr, i.wf = true → decode (encode i) = .ok i

/-- R70 to R76, R79: a code that decodes is the code of what it decodes to, which is well-formed. -/
def Obligations.EncodeOfDecode : Prop :=
  ∀ (c : Code) (i : Instr), decode c = .ok i → i.wf = true ∧ encode i = c

/-- R76: a word is legal iff it decodes, iff it selects a row of R72 and, for the LUT row, its index is at most 10. -/
def Obligations.LegalIffDecodes : Prop :=
  ∀ w : Word,
    (legal w = true ↔ ∃ i, decode (.word w) = .ok i) ∧
    (legal w = true ↔ ∃ r ∈ hostRows, r.selects w = true ∧ (r.mnemonic = "LUT" → w.extractLsb' 0 4 ≤ 10#4))

/-- R72, R79: no word matches two rows. -/
def Obligations.RowsAreDisjoint : Prop :=
  (∀ (w : Word) (r r' : Row), r ∈ hostRows → r' ∈ hostRows → r.selects w = true → r'.selects w = true → r = r') ∧
  (∀ (b : Byte) (r r' : Byte × Byte), r ∈ wireRows → r' ∈ wireRows → b &&& r.1 = r.2 → b &&& r'.1 = r'.2 → r = r')

/-- R75: every word with one of the seven reserved opcodes is illegal, and the decoder says why. -/
def Obligations.ReservedOpcodesIllegal : Prop :=
  ∀ w : Word, (w.extractLsb' 28 4 = 0#4 ∨ 10#4 ≤ w.extractLsb' 28 4) →
    legal w = false ∧ decode (.word w) = .error .reservedOpcode

/-- R74, R71: a legal word with any reserved bit of its format set in addition is illegal. -/
def Obligations.ReservedBitsIllegal : Prop :=
  ∀ (w : Word) (k : Nat), legal w = true → k < 28 →
    (∀ r ∈ hostRows, r.selects w = true → r.mask.getLsbD k = true) → legal (w ||| BitVec.twoPow 32 k) = false

/-- R82: the assembler never produces an illegal word. -/
def Obligations.AssemblerGivesLegalWords : Prop :=
  ∀ (l : AsmLine) (w : Word), assemble l = some w → legal w = true ∧ ∃ i, asmInstr l = some i ∧ decode (.word w) = .ok i

/-! ### The action lists -/

/-- R106, R108: the two lists, the action that makes the condition, the pins they leave from any pin state, and that
they hold no `MODE` action. -/
def Obligations.StartAndStopLists : Prop :=
  startList = [.clk true, .dio true, .dly, .dio false, .dly, .clk false, .dly] ∧
  stopList = [.clk false, .dio false, .dly, .clk true, .dly, .dio true, .dly] ∧
  (∀ m, PinAction.mode m ∉ startList ∧ PinAction.mode m ∉ stopList) ∧
  (∀ p : Pins, p.applyAll startList = ⟨false, false, p.dioMode⟩ ∧ p.applyAll stopList = ⟨true, true, p.dioMode⟩) ∧
  (∀ p : Pins, p.dioMode = .outOd →
    wireEvent (p.applyAll (startList.take 3)) (.dio false) = some .start ∧
    wireEvent (p.applyAll (stopList.take 5)) (.dio true) = some .stop)

/-- R110, R111: the byte's bits go out least significant first, one per clock pulse, the sample stands at index 54, and
the list leaves the pins as said. -/
def Obligations.SendByteList : Prop :=
  ∀ v : Byte,
    (sendByte v).length = 58 ∧ delayUnits (sendByte v) = 28 ∧ clkHighCount (sendByte v) = 9 ∧
    sampleCount (sendByte v) = 1 ∧ (sendByte v)[54]? = some .smp ∧
    dioLevels (sendByte v) = (List.range 8).map v.getLsbD ∧
    ∀ p : Pins, p.applyAll (sendByte v) = ⟨false, v.getLsbD 7, .outOd⟩

/-- R112: the number and kind of the actions depend on the command alone, not on a byte sent or on the table. -/
def Obligations.ControlIndependentOfData : Prop :=
  (∀ v v' : Byte, (sendByte v).map kindOf = (sendByte v').map kindOf) ∧
  (∀ (t t' : SegTable) (l l' : Byte) (f f' : Frame),
    (commandActions t (.brt l) f).map kindOf = (commandActions t' (.brt l') f').map kindOf) ∧
  (∀ (t t' : SegTable) (off : BitVec 2) (v : BitVec 16) (c : BitVec 1) (f f' : Frame),
    (commandActions t (.wrf off) f).map kindOf = (commandActions t' (.rend v c) f').map kindOf)

/-- R213, V-C1: the counts of every command: actions, delay units, samples, and clock rising edges from bus idle. -/
def Obligations.CommandCounts : Prop :=
  ∀ (t : SegTable) (f : Frame),
    (∀ v, (commandActions t (.sendb v) f).length = 58 ∧ delayUnits (commandActions t (.sendb v) f) = 28 ∧
      sampleCount (commandActions t (.sendb v) f) = 1 ∧
      risingEdges ⟨false, false, .outOd⟩ (commandActions t (.sendb v) f) = 9) ∧
    (∀ l, (commandActions t (.brt l) f).length = 72 ∧ delayUnits (commandActions t (.brt l) f) = 34 ∧
      sampleCount (commandActions t (.brt l) f) = 1 ∧ risingEdges Pins.idle (commandActions t (.brt l) f) = 10) ∧
    (∀ off, (commandActions t (.wrf off) f).length = 376 ∧ delayUnits (commandActions t (.wrf off) f) = 180 ∧
      sampleCount (commandActions t (.wrf off) f) = 6 ∧ risingEdges Pins.idle (commandActions t (.wrf off) f) = 56) ∧
    (∀ v c, (commandActions t (.rend v c) f).length = 376 ∧ delayUnits (commandActions t (.rend v c) f) = 180 ∧
      sampleCount (commandActions t (.rend v c) f) = 6 ∧ risingEdges Pins.idle (commandActions t (.rend v c) f) = 56) ∧
    (commandActions t .init f).length = 448 ∧ delayUnits (commandActions t .init f) = 214 ∧
    sampleCount (commandActions t .init f) = 7 ∧ risingEdges Pins.idle (commandActions t .init f) = 66

/-- R204, R102, R105: in every command, begun in output mode from any levels, the mode switches only with the clock low,
data is driven only in output mode, and the sample is taken in input mode with the clock high. -/
def Obligations.EveryListRespectsHazards : Prop :=
  ∀ (t : SegTable) (i : Instr) (f : Frame) (p : Pins), p.dioMode = .outOd → hazardFree p (commandActions t i f) = true

/-- R205: the only data actions performed with the clock high are the second and fourth of `Start()` and the sixth of
`Stop()`; positions count from 0. -/
def Obligations.DataChangesOnlyWithClockLow : Prop :=
  ∀ (p : Pins) (v : Byte),
    dioWhileHigh p 0 startList = [1, 3] ∧ dioWhileHigh p 0 stopList = [5] ∧ dioWhileHigh p 0 (sendByte v) = []

/-- R66: the wire transactions of each command from the bus-idle pin state; an illegal word has no pin action; an empty
transaction changes no digit. The blank code of INIT is `SEG[10]`, 0x00 in every table the spec's source allows. -/
def Obligations.WireTransactionsOfCommands : Prop :=
  (tx Pins.idle startList = [] ∧ (Rx.empty.feedAll (wireEvents Pins.idle startList)).txn = some ⟨[], []⟩) ∧
  tx Pins.idle (startList ++ stopList) = [[]] ∧
  (∀ v : Byte, tx Pins.idle (startList ++ sendByte v ++ stopList) = [[v]]) ∧
  (∀ (t : SegTable) (off : BitVec 2) (f : Frame), tx Pins.idle (commandActions t (.wrf off) f) =
    [[0x40#8], [0xC0#8 + off.setWidth 8, f.b0, f.b1, f.b2, f.b3]]) ∧
  (∀ (t : SegTable) (l : Byte) (f : Frame),
    tx Pins.idle (commandActions t (.brt l) f) = [[0x88#8 + (if l ≤ 7#8 then l else 7#8)]]) ∧
  (∀ (t : SegTable) (v : BitVec 16) (c : BitVec 1) (f : Frame),
    let r := renderFrame t v c
    tx Pins.idle (commandActions t (.rend v c) f) = [[0x40#8], [0xC0#8, r.b0, r.b1, r.b2, r.b3]]) ∧
  (∀ (t : SegTable) (f : Frame),
    let b := segCode t 10
    tx Pins.idle (commandActions t .init f) = [[0x40#8], [0xC0#8, b, b, b, b], [0x8F#8]] ∧
    (sourced t = true → b = 0x00#8)) ∧
  (∀ (t : SegTable) (idx : BitVec 2) (v : Byte) (l : BitVec 4) (f : Frame),
    commandActions t (.setf idx v) f = [] ∧ commandActions t (.lut l) f = []) ∧
  (∀ (t : SegTable) (w : Word) (f : Frame), legal w = false → actions t ⟨w, f⟩ = []) ∧
  (∀ (s : State) (rest : List (List Byte)), s.dev.rx.closed = [] :: rest →
    ∃ d, deviceStep s = .next { s with dev := d } ∧ d.SameRegs s.dev)

/-! ### The commands: acceptance and whole effect -/

/-- R107, R106, R34: START. -/
def Obligations.StartResult : Prop :=
  ∀ s : State, s.busy = false →
    exec .start s = .next { s with ill := false, cur := ⟨0x10000000#32, s.f⟩, upc := 0#9, upcEnd := 7#9 } ∧
    ∃ u, runCommand .start s = .next u ∧
      u.performed = s.performed ++ [.clk true, .dio true, .dly, .dio false, .dly, .clk false, .dly] ∧
      u.pins = ⟨false, false, s.pins.dioMode⟩ ∧ u.ack = s.ack ∧ u.ill = false ∧ u.busy = false

/-- R109, R108, R34: STOP. -/
def Obligations.StopResult : Prop :=
  ∀ s : State, s.busy = false →
    exec .stop s = .next { s with ill := false, cur := ⟨0x20000000#32, s.f⟩, upc := 0#9, upcEnd := 7#9 } ∧
    ∃ u, runCommand .stop s = .next u ∧
      u.performed = s.performed ++ [.clk false, .dio false, .dly, .clk true, .dly, .dio true, .dly] ∧
      u.pins = ⟨true, true, s.pins.dioMode⟩ ∧ u.ack = s.ack ∧ u.ill = false ∧ u.busy = false

/-- R111, R110, R34, R58: SENDB; `ACK` is the answer to the one sample; the reference remote device acknowledges the byte
iff it receives it, with a transaction open and no bit pending (log entry 19). -/
def Obligations.SendbResult : Prop :=
  ∀ (s : State) (v : Byte), s.busy = false →
    exec (.sendb v) s = .next
      { s with ill := false, cur := ⟨0x30000000#32 ||| v.setWidth 32, s.f⟩, upc := 0#9, upcEnd := 58#9 } ∧
    ∃ u, runCommand (.sendb v) s = .next u ∧ u.performed = s.performed ++ sendByte v ∧
      u.pins = ⟨false, v.getLsbD 7, .outOd⟩ ∧ (s.responder ≠ .device → u.ack = s.answerAt 0) ∧
      (s.responder = .device → s.pins.dioMode = .outOd → (u.ack = true ↔ ∃ bs, s.dev.rx.txn = some ⟨[], bs⟩)) ∧ u.ill = false ∧ u.busy = false

/-- R131: SETF writes one frame register at acceptance and has no action. -/
def Obligations.SetfResult : Prop :=
  ∀ (s : State) (idx : BitVec 2) (v : Byte), s.busy = false →
    ∃ t, exec (.setf idx v) s = .next t ∧
      t = { s with
        f := t.f, ill := false, cur := ⟨0x40000000#32 ||| (idx.setWidth 32 <<< 8) ||| v.setWidth 32, t.f⟩
        upc := 0#9, upcEnd := 0#9 } ∧
      (∀ j : BitVec 2, t.f.get j = if j = idx then v else s.f.get j) ∧ t.busy = false

/-- R135, R134: WRF sends `F` as latched; `ACK` is the answer to the last of six samples. -/
def Obligations.WrfResult : Prop :=
  ∀ (s : State) (off : BitVec 2), s.busy = false →
    exec (.wrf off) s = .next
      { s with ill := false, cur := ⟨0x50000000#32 ||| off.setWidth 32, s.f⟩, upc := 0#9, upcEnd := 376#9 } ∧
    ∃ u, runCommand (.wrf off) s = .next u ∧
      u.performed = s.performed ++
        (startList ++ sendByte 0x40#8 ++ stopList ++ startList ++ sendByte (0xC0#8 ||| off.setWidth 8)
          ++ sendByte (s.f.get 0#2) ++ sendByte (s.f.get 1#2) ++ sendByte (s.f.get 2#2) ++ sendByte (s.f.get 3#2)
          ++ stopList) ∧
      u.pins = ⟨true, true, .outOd⟩ ∧ u.ack = s.answerAt 5 ∧ u.ill = false ∧ u.busy = false ∧ u.f = s.f

/-- R138, R137: BRT clamps by comparison. The reference remote device (R58) receives its byte where the data pin is in output
mode at entry, as it is at every command boundary (R40). -/
def Obligations.BrtResult : Prop :=
  ∀ (s : State) (l : Byte), s.busy = false →
    exec (.brt l) s = .next
      { s with ill := false, cur := ⟨0x60000000#32 ||| l.setWidth 32, s.f⟩, upc := 0#9, upcEnd := 72#9 } ∧
    ∃ u, runCommand (.brt l) s = .next u ∧
      u.performed = s.performed ++
        (startList ++ sendByte (0x88#8 ||| (if l.toNat ≤ 7 then l else 7#8)) ++ stopList) ∧
      u.pins = ⟨true, true, .outOd⟩ ∧ ((s.responder = .device → s.pins.dioMode = .outOd) → u.ack = s.answerAt 0) ∧
      u.ill = false ∧ u.busy = false

/-- R157: REND sends the rendered frame at offset 0. -/
def Obligations.RendResult : Prop :=
  ∀ (s : State) (v : BitVec 16) (c : BitVec 1), s.busy = false →
    exec (.rend v c) s = .next
      { s with
        ill := false, cur := ⟨0x70000000#32 ||| (c.setWidth 32 <<< 16) ||| v.setWidth 32, s.f⟩
        upc := 0#9, upcEnd := 376#9 } ∧
    ∃ u, runCommand (.rend v c) s = .next u ∧ u.performed = s.performed ++ wrfList 0#2 (renderFrame s.seg v c) ∧
      u.pins = ⟨true, true, .outOd⟩ ∧ u.ack = s.answerAt 5 ∧ u.ill = false ∧ u.busy = false ∧
      u.f = s.f ∧ u.res = s.res

/-- R170: INIT sends four times the blank code `SEG[10]` and the level 7; it neither reads nor writes `F` and `RES`. The
blank code is 0x00 in every table the spec's source allows. -/
def Obligations.InitResult : Prop :=
  ∀ s : State, s.busy = false →
    exec .init s = .next { s with ill := false, cur := ⟨0x80000000#32, s.f⟩, upc := 0#9, upcEnd := 448#9 } ∧
    ∃ u, runCommand .init s = .next u ∧
      u.performed = s.performed ++
        (wrfList 0#2 ⟨segCode s.seg 10, segCode s.seg 10, segCode s.seg 10, segCode s.seg 10⟩ ++ brtList 7#8) ∧
      (sourced s.seg = true →
        u.performed = s.performed ++ (wrfList 0#2 ⟨0x00#8, 0x00#8, 0x00#8, 0x00#8⟩ ++ brtList 7#8)) ∧
      u.pins = ⟨true, true, .outOd⟩ ∧ u.ack = s.answerAt 6 ∧ u.ill = false ∧ u.busy = false ∧
      u.f = s.f ∧ u.res = s.res

/-- R152, R150: LUT reads the table; an index the table lacks is an illegal word (R76). The table is the parameter `SEG`;
at reset it has the spec's defaults, of which the entries for 2 to 7 and 9 are general knowledge (GK1, log entry 9). -/
def Obligations.LutResult : Prop :=
  (∀ (s : State) (l : BitVec 4), s.busy = false →
    (∀ h : l.toNat < 11,
      exec (.lut l) s = .next
        { s with
          res := s.seg[l.toNat], ill := false, cur := ⟨0x90000000#32 ||| l.setWidth 32, s.f⟩
          upc := 0#9, upcEnd := 0#9 }) ∧
    (11#4 ≤ l → exec (.lut l) s = .next { s with ill := true })) ∧
  State.reset.seg =
    #v[0x3F#8, 0x06#8, 0x5B#8, 0x4F#8, 0x66#8, 0x6D#8, 0x7D#8, 0x07#8, 0x7F#8, 0x6F#8, 0x00#8]

/-- R34: a command presented to a busy block changes nothing. -/
def Obligations.BusyBlockAcceptsNothing : Prop :=
  ∀ (i : Instr) (s : State), i.isHost = true → s.busy = true → exec i s = .next s

/-- R173: INIT puts on the wire, action for action, what the six commands put there; they differ in `F` only. The blank
code that SETF writes is `SEG[10]`, 0x00 in every table the spec's source allows (R150). -/
def Obligations.InitEqualsItsSequence : Prop :=
  ∀ s : State, s.busy = false →
    let b := segCode s.seg 10
    (sourced s.seg = true → b = 0x00#8) ∧
    ∃ u v, runCommand .init s = .next u ∧
      runCommands [.setf 0#2 b, .setf 1#2 b, .setf 2#2 b, .setf 3#2 b, .wrf 0#2, .brt 7#8] s = .next v ∧
      u.hist = v.hist ∧ u.pins = v.pins ∧ u.ack = v.ack ∧ u.ill = v.ill ∧ u.res = v.res ∧ u.dev = v.dev ∧
      u.answers = v.answers ∧ u.draws = v.draws ∧ u.f = s.f ∧ v.f = ⟨b, b, b, b⟩

/-! ### Frames -/

/-- R34, R21, R23, R28: what the accept step of each command leaves: the pins, `ACK`, the trace, the environment's inputs
and the remote device for every command; `F` but for SETF, and SETF's other three registers; `RES` but for LUT. -/
def Obligations.AcceptStepFrame : Prop :=
  ∀ (i : Instr) (s t : State), i.isHost = true → exec i s = .next t →
    t.pins = s.pins ∧ t.ack = s.ack ∧ t.hist = s.hist ∧ t.host = s.host ∧ t.answers = s.answers ∧
    t.draws = s.draws ∧ t.dev = s.dev ∧
    ((∀ idx v, i ≠ .setf idx v) → t.f = s.f) ∧
    (∀ idx v j, i = .setf idx v → j ≠ idx → t.f.get j = s.f.get j) ∧
    ((∀ l, i ≠ .lut l) → t.res = s.res)

/-- R21, R23, R28, R39: what a whole command leaves, its act steps included. `ACK` stays where no byte is sent. A LUT index
of 11 or more is no command (R76): it leaves `CUR`, so that an idle block must agree with its old command. That the remote
device's registers and draws stay is the model's choice, not these rules': `runCommand` is the block's part alone, and the
device acts only in `step`, one step after a transaction closes (DESIGN CHOICE, log entries 3 and 12; for what INIT and
REND then do to those registers see InitReachesDisplay and RenderedNumberReachesDisplay). -/
def Obligations.WholeCommandFrame : Prop :=
  ∀ (i : Instr) (s u : State), i.isHost = true → (i.wf = true ∨ s.SeqInv) → s.busy = false → runCommand i s = .next u →
    u.host = s.host ∧ u.dev.SameRegs s.dev ∧ u.dev.draws = s.dev.draws ∧
    ((∀ idx v, i ≠ .setf idx v) → u.f = s.f) ∧
    (∀ idx v j, i = .setf idx v → j ≠ idx → u.f.get j = s.f.get j) ∧
    ((∀ l, i ≠ .lut l) → u.res = s.res) ∧
    (sendsByte i = false → u.ack = s.ack ∧ u.answers = s.answers ∧ u.draws = s.draws)

/-- R55, R58: a wire command byte changes nothing of the block, and of the remote device only what it is for; it uses up
its transaction. What [0x44] leaves is the model's choice after GK3 (PRESUMED, log entry 8); that W_ADDR leaves the mode
and the control byte outside auto-increment mode and where bytes go past the fourth register is the model's choice
(DESIGN CHOICE, log entries 6 and 18). -/
def Obligations.WireCommandFrame : Prop :=
  ∀ (i : Instr) (s t : State), i.isHost = false → exec i s = .next t →
    t = { s with dev := t.dev } ∧ t.dev.rx = ⟨s.dev.rx.txn, s.dev.rx.closed.tail⟩ ∧
    ((∀ off, i ≠ .wAddr off) → s.dev.dataBytes = [] → t.dev.dreg = s.dev.dreg) ∧
    ((∀ lvl, i ≠ .wCtrlOn lvl) → (∀ off, i ≠ .wAddr off) → s.dev.dataBytes = [] → t.dev.ctrl = s.dev.ctrl) ∧
    (∀ lvl, i = .wCtrlOn lvl → s.dev.dataBytes = [] → t.dev.mode = s.dev.mode) ∧
    (∀ off, i = .wAddr off → t.dev.ctrl = s.dev.ctrl ∧ t.dev.mode = s.dev.mode)

/-! ### The wire command bytes -/

/-- R58, R130: `[0x40]` selects auto-increment address mode. -/
def Obligations.WDataAutoResult : Prop :=
  ∀ s : State, s.dev.dataBytes = [] →
    exec .wDataAuto s = .next
      { s with dev := { s.dev with mode := .autoInc, rx := ⟨s.dev.rx.txn, s.dev.rx.closed.tail⟩ } }

/-- The model's choice after GK3 (log entry 8): `[0x44]` selects fixed address mode. -/
def Obligations.WDataFixedResult : Prop :=
  ∀ s : State, s.dev.dataBytes = [] →
    exec .wDataFixed s = .next
      { s with dev := { s.dev with mode := .fixedAddr, rx := ⟨s.dev.rx.txn, s.dev.rx.closed.tail⟩ } }

/-- R58: in auto-increment mode the k-th data byte goes to `DREG[a + k]` for `a + k <= 3`; where no byte goes past the
fourth register, the registers no byte is addressed to stay. Where bytes do go past it, the spec leaves their effect open
(R58, N6); that they overwrite none of `DREG[a]` to `DREG[3]`, so that the first clause holds there too, is the model's
choice (DESIGN CHOICE, log entry 18). -/
def Obligations.WAddrResult : Prop :=
  ∀ (s : State) (off : BitVec 2),
    ∃ t, exec (.wAddr off) s = .next t ∧ t = { s with dev := t.dev } ∧
      (s.dev.mode = .autoInc → ∀ i : BitVec 2,
        (∀ d, off ≤ i → s.dev.dataBytes[i.toNat - off.toNat]? = some d → t.dev.dreg.get i = d) ∧
        ((i < off ∨ s.dev.dataBytes.length ≤ i.toNat - off.toNat) → off.toNat + s.dev.dataBytes.length ≤ 4 →
          t.dev.dreg.get i = s.dev.dreg.get i))

/-- R58, R130: `[0x88 + lvl]` sets the control byte. -/
def Obligations.WCtrlOnResult : Prop :=
  ∀ (s : State) (lvl : BitVec 3), s.dev.dataBytes = [] →
    exec (.wCtrlOn lvl) s = .next
      { s with dev := { s.dev with ctrl := 0x88#8 + lvl.setWidth 8, rx := ⟨s.dev.rx.txn, s.dev.rx.closed.tail⟩ } }

/-! ### Operands -/

/-- R137, D32: the clamp is a comparison over all eight bits, and the byte sent is in 0x88..0x8F. -/
def Obligations.LevelIsClamped : Prop :=
  ∀ l : Byte, (ctrlByte l).toNat = 0x88 + min l.toNat 7

/-- R153, R154: the closed form of leading-zero blanking, without the colon, for every table. -/
def Obligations.BlankingClosedForm : Prop :=
  ∀ (t : SegTable) (v : BitVec 16),
    let n := v.toNat % 10000
    renderFrame t v 0#1 =
      ⟨if n < 1000 then segCode t 10 else segCode t (n / 1000),
       if n < 100 then segCode t 10 else segCode t (n / 100 % 10),
       if n < 10 then segCode t 10 else segCode t (n / 10 % 10),
       segCode t (n % 10)⟩

/-- R155: the colon is bit 7 of the second byte and of no other, set whether or not that position is blank. Bit 7 of
every entry of the table is 0 and the blank code is 0x00 (R51, R150). -/
def Obligations.ColonIsBitSevenOfSecondByte : Prop :=
  ∀ (t : SegTable) (v : BitVec 16) (c : BitVec 1),
    (sourced t = true →
      (renderFrame t v c).b1.getLsbD 7 = decide (c = 1#1) ∧ (renderFrame t v c).b0.getLsbD 7 = false ∧
      (renderFrame t v c).b2.getLsbD 7 = false ∧ (renderFrame t v c).b3.getLsbD 7 = false) ∧
    renderFrame t v 1#1 = { renderFrame t v 0#1 with b1 := (renderFrame t v 0#1).b1 ||| 0x80#8 } ∧
    ((renderFrame t v 0#1).b1 = 0x00#8 → (renderFrame t v 1#1).b1 = 0x80#8)

/-- R159: rendering wraps modulo 10000; the units digit is shown; blanks stand only on the left; a zero right of a shown
digit is shown; the colon adds one bit. Where it speaks of a position being blank or not, no digit of the table has the
blank code, as in the default table, whose entries 2 to 7 and 9 are GK1's (log entry 9). -/
def Obligations.RenderLaws : Prop :=
  ∀ (t : SegTable) (v : BitVec 16) (c : BitVec 1),
    renderFrame t v c = renderFrame t (BitVec.ofNat 16 (v.toNat % 10000)) c ∧
    (renderFrame t v c).b3 = segCode t (v.toNat % 10) ∧
    renderFrame t v 1#1 = { renderFrame t v 0#1 with b1 := (renderFrame t v 0#1).b1 ||| 0x80#8 } ∧
    (sourced t = true → digitsShown t = true →
      (renderFrame t v c).b3 ≠ 0x00#8 ∧
      ((renderFrame t v 0#1).b2 = 0x00#8 → (renderFrame t v 0#1).b1 = 0x00#8) ∧
      ((renderFrame t v 0#1).b1 = 0x00#8 → (renderFrame t v 0#1).b0 = 0x00#8) ∧
      ((renderFrame t v 0#1).b0 ≠ 0x00#8 → v.toNat / 100 % 10 = 0 → (renderFrame t v 0#1).b1 = 0x3F#8) ∧
      ((renderFrame t v 0#1).b1 ≠ 0x00#8 → v.toNat / 10 % 10 = 0 → (renderFrame t v 0#1).b2 = 0x3F#8))

/-- R37, R27, R200: the ports show the state; the pad drives low exactly as the line rule says; `dio_i` is the line
level. -/
def Obligations.PortsShowState : Prop :=
  ∀ (s : State) (remoteLow : Bool),
    s.ports.busy = decide (s.upc.toNat < s.upcEnd.toNat) ∧
    ((∀ rest, s.host ≠ .rst :: rest) → s.ports.cmdReady = !s.ports.busy) ∧
    s.ports.ack = s.ack ∧ s.ports.ill = s.ill ∧ s.ports.res = s.res ∧ s.ports.sclO = s.pins.clkOut ∧
    s.ports.dioO = s.pins.dioOut ∧ s.ports.dioMode = s.pins.dioMode ∧
    (s.ports.padLow = true ↔ s.pins.dioMode = .outOd ∧ s.pins.dioOut = false) ∧
    s.dioI remoteLow = !(s.ports.padLow || remoteLow)

/-! ### Invariants -/

/-- The reset state meets the invariants below. That it meets the sequencer invariant rests on the model's choices: `CUR`
holds zeros at reset (DESIGN CHOICE, log entry 1), and an illegal word has no action (DESIGN CHOICE, log entry 13). -/
def Obligations.ResetMeetsInvariants : Prop :=
  State.reset.SeqInv ∧ State.reset.PinsInv ∧ State.reset.AckInv ∧ State.reset.TraceInv

/-- R22, R40: every step keeps the sequencer in agreement with its command. For a step with `rst = 1` that rests on the
model's choices: `CUR` becomes zeros (DESIGN CHOICE, log entry 1), and an illegal word has no action (DESIGN CHOICE, log
entry 13). -/
def Obligations.StepKeepsSequencer : Prop :=
  ∀ s t : State, s.SeqInv → step s = .next t → t.SeqInv

/-- R36, R56: every step keeps the pins equal to the trace replayed from the reset pins. -/
def Obligations.StepKeepsPinsReplay : Prop :=
  ∀ s t : State, s.PinsInv → step s = .next t → t.PinsInv

/-- R23: every step keeps `ACK` the result of the most recent sample since reset. -/
def Obligations.StepKeepsAckLastSample : Prop :=
  ∀ s t : State, s.AckInv → step s = .next t → t.AckInv

/-- R61, R33: every step keeps the newest trace entries equal to the command's actions performed so far, in order. -/
def Obligations.StepKeepsTraceOrder : Prop :=
  ∀ s t : State, s.SeqInv → s.TraceInv → step s = .next t → t.TraceInv

/-- R40: at every command boundary the data pin is in output mode; START and STOP hold no `MODE` action. -/
def Obligations.IdleBlockIsInOutputMode : Prop :=
  (∀ s : State, s.SeqInv → s.busy = false → s.pins.dioMode = .outOd) ∧
  ∀ m, PinAction.mode m ∉ startList ∧ PinAction.mode m ∉ stopList

/-- R204: in every state that meets the invariants, the mode is switched only while the clock is low. -/
def Obligations.ModeSwitchesOnlyWithClockLow : Prop :=
  ∀ (s : State) (m : PinMode), s.SeqInv → s.PinsInv → s.TraceInv → s.busy = true →
    (actions s.seg s.cur)[s.upc.toNat]? = some (.mode m) → s.pins.clkOut = false

/-! ### Whole-machine rules -/

/-- R195, R214: the block has no stuck state: a busy one has an action to perform, it is idle after at most 448 steps
whatever the host does meanwhile, and an idle one takes any presented word. -/
def Obligations.BlockNeverHangs : Prop :=
  ∀ s : State, s.SeqInv →
    (∃ t, step s = .next t) ∧
    (s.busy = true → ∃ a, (actions s.seg s.cur)[s.upc.toNat]? = some a) ∧
    (∃ n t, n ≤ 448 ∧ Host.Core.run Sys2Proof.core n s = .next t ∧ t.busy = false) ∧
    (s.busy = false → ∀ w rest, s.host = .present w :: rest → ∃ t, step s = .next t ∧ t.host = rest)

/-- R35: the steps of a command in progress, one action each, end in the state of the big step; only the remote device,
which acts beside the block, may differ. -/
def Obligations.StepsAgreeWithBigStep : Prop :=
  ∀ s : State, s.SeqInv → s.host = [] →
    ∃ t, Host.Core.run Sys2Proof.core (s.upcEnd.toNat - s.upc.toNat) s = .next t ∧ s.complete.SameBlock t ∧
      t.busy = false

/-- R31, R112, R181: no acknowledgment steers the block: two states that differ only in acknowledgments, the coming
answers, who gives them, the remote device and the instance's number take steps that perform the same actions on the same pins. -/
def Obligations.AcknowledgmentNeverSteers : Prop :=
  ∀ s s' t : State, s.SameDrive s' → step s = .next t → ∃ t', step s' = .next t' ∧ t.SameDrive t'

/-- R7, R27, R39: the remote device's registers, its counters and the transactions it has not acted on never change what
the block does; neither does the transaction it is receiving, but for `ACK` where the reference device itself answers the
samples (R58, log entry 19), of which AcknowledgmentNeverSteers speaks. Without reset the transactions being received stay
equal. -/
def Obligations.RemoteDeviceNeverSteersBlock : Prop :=
  ∀ s s' t : State, s.SameBlock s' → (s.responder = .device → s.dev.rx.txn = s'.dev.rx.txn) → step s = .next t →
    ∃ t', step s' = .next t' ∧ t.SameBlock t' ∧
      ((∀ rest, s.host ≠ .rst :: rest) → s.dev.rx.txn = s'.dev.rx.txn → t.dev.rx.txn = t'.dev.rx.txn)

/-- R64, R191, R9: the system starts with `N_INST` instances alike at reset; a step of one instance leaves every other
instance, and an instance keeps its parameters (log entries 15, 17, 19). -/
def Obligations.InstancesAreIndependent : Prop :=
  systemReset.length = Config.nInst ∧
  (∀ k, k < Config.nInst → systemReset[k]? = some { State.reset with inst := k }) ∧
  ∀ (sys sys' : List State) (k : Nat), systemStep sys k = .next sys' →
    sys'.length = sys.length ∧ (∀ j, j ≠ k → sys'[j]? = sys[j]?) ∧
    ∀ s, sys[k]? = some s → ∃ t, step s = .next t ∧ sys'[k]? = some t ∧ t.seg = s.seg ∧ t.inst = s.inst ∧
      t.responder = s.responder

/-- R157, R66, R58: from an idle bus, one step that accepts REND, its 376 actions and one step of the reference remote
device leave the rendered frame in the digit registers, whatever was acknowledged; where the reference device answers the
samples itself, or a mock, `ACK` is 1. The reference device is the spec's
informative one (R58); that it acts one step after a transaction closes, hence the number of steps, is the model's choice
(DESIGN CHOICE, log entry 3). -/
def Obligations.RenderedNumberReachesDisplay : Prop :=
  ∀ (s : State) (v : BitVec 16) (c : BitVec 1),
    s.SeqInv → s.busy = false → s.pins = Pins.idle → s.dev.rx = Rx.empty →
    s.host = [.present (0x70000000#32 ||| (c.setWidth 32 <<< 16) ||| v.setWidth 32)] →
      ∃ t, Host.Core.run Sys2Proof.core 378 s = .next t ∧ t.dev.dreg = renderFrame s.seg v c ∧
        t.dev.mode = .autoInc ∧ t.dev.ctrl = s.dev.ctrl ∧ t.ack = s.answerAt 5 ∧ t.busy = false ∧ t.pins = Pins.idle

/-- R172, R170, R66, R58: from an idle bus, INIT leaves the reference remote device blank at full brightness, and `ACK`
is 1 where that device answers the samples itself, or a mock. The device is
the spec's informative one (R58); that it acts one step after a transaction closes, hence the number of steps, is the
model's choice (DESIGN CHOICE, log entry 3). The blank code is 0x00 in every table the spec's source allows. -/
def Obligations.InitReachesDisplay : Prop :=
  ∀ s : State,
    s.SeqInv → s.busy = false → s.pins = Pins.idle → s.dev.rx = Rx.empty → s.host = [.present 0x80000000#32] →
      ∃ t, Host.Core.run Sys2Proof.core 450 s = .next t ∧
        t.dev.dreg = ⟨segCode s.seg 10, segCode s.seg 10, segCode s.seg 10, segCode s.seg 10⟩ ∧
        (sourced s.seg = true → t.dev.dreg = ⟨0x00#8, 0x00#8, 0x00#8, 0x00#8⟩) ∧
        t.dev.ctrl = 0x8F#8 ∧ t.ack = s.answerAt 6 ∧ (s.responder ≠ .free → t.ack = true) ∧ t.busy = false ∧ t.pins = Pins.idle
end

