-- ==== Sys2Proof/Laws/Lists.lean ====
section
/-! SUPPORT. The action lists: their lengths, the pins they leave, the wire events of a list in two parts. -/

namespace Sys2Proof.Machine

@[simp] theorem startList_length : startList.length = 7 := rfl
@[simp] theorem stopList_length : stopList.length = 7 := rfl
@[simp] theorem sendByte_length (v : Byte) : (sendByte v).length = 58 := rfl
@[simp] theorem wrfList_length (off : BitVec 2) (f : Frame) : (wrfList off f).length = 376 := by
  simp [wrfList]
@[simp] theorem brtList_length (l : Byte) : (brtList l).length = 72 := by
  simp [brtList]
@[simp] theorem actionsInit_length (t : SegTable) : (actionsInit t).length = 448 := by
  simp [actionsInit]

/-- No action list is longer than that of INIT (R22). -/
theorem commandActions_length_le (t : SegTable) (i : Instr) (f : Frame) : (commandActions t i f).length ≤ 448 := by
  cases i <;> simp [commandActions, actionsStart, actionsStop, actionsSendb, actionsSetf, actionsWrf, actionsBrt,
    actionsRend, actionsLut]

theorem actions_length_le (t : SegTable) (c : Cur) : (actions t c).length ≤ 448 := by
  unfold actions
  split
  · exact commandActions_length_le _ _ _
  · simp

@[simp] theorem Pins.applyAll_nil (p : Pins) : p.applyAll [] = p := rfl
@[simp] theorem Pins.applyAll_cons (p : Pins) (a : PinAction) (l : List PinAction) :
    p.applyAll (a :: l) = (p.apply a).applyAll l := rfl
@[simp] theorem Pins.applyAll_append (p : Pins) (l m : List PinAction) :
    p.applyAll (l ++ m) = (p.applyAll l).applyAll m := List.foldl_append

theorem wireEvents_append (p : Pins) (l m : List PinAction) :
    wireEvents p (l ++ m) = wireEvents p l ++ wireEvents (p.applyAll l) m := by
  induction l generalizing p with
  | nil => rfl
  | cons a l ih => simp [wireEvents, ih]

theorem Rx.feedAll_append (r : Rx) (es fs : List WireEvent) : r.feedAll (es ++ fs) = (r.feedAll es).feedAll fs :=
  List.foldl_append

theorem modeAfter_append (m : PinMode) (l k : List PinAction) :
    modeAfter m (l ++ k) = modeAfter (modeAfter m l) k := List.foldl_append

@[simp] theorem modeAfter_startList (m : PinMode) : modeAfter m startList = m := rfl
@[simp] theorem modeAfter_stopList (m : PinMode) : modeAfter m stopList = m := rfl
@[simp] theorem modeAfter_sendByte (m : PinMode) (v : Byte) : modeAfter m (sendByte v) = .outOd := rfl

/-- The pins after START, from any pin state (R106). -/
@[simp] theorem applyAll_startList (p : Pins) : p.applyAll startList = ⟨false, false, p.dioMode⟩ := rfl

/-- The pins after STOP, from any pin state (R108). -/
@[simp] theorem applyAll_stopList (p : Pins) : p.applyAll stopList = ⟨true, true, p.dioMode⟩ := rfl

/-- The pins after a byte, from any pin state (R110). -/
@[simp] theorem applyAll_sendByte (p : Pins) (v : Byte) : p.applyAll (sendByte v) = ⟨false, v.getLsbD 7, .outOd⟩ := rfl

/-- The mode is output at the end of every action list that begins in output mode (R40). -/
theorem modeAfter_commandActions (t : SegTable) (i : Instr) (f : Frame) :
    modeAfter .outOd (commandActions t i f) = .outOd := by
  cases i <;> simp [commandActions, actionsStart, actionsStop, actionsSendb, actionsSetf, actionsWrf, actionsBrt,
    actionsRend, actionsLut, actionsInit, wrfList, brtList, modeAfter_append]
  all_goals rfl

theorem modeAfter_actions (t : SegTable) (c : Cur) : modeAfter .outOd (actions t c) = .outOd := by
  unfold actions
  split
  · exact modeAfter_commandActions _ _ _
  · rfl

theorem hazardFree_append (p : Pins) (l k : List PinAction) :
    hazardFree p (l ++ k) = (hazardFree p l && hazardFree (p.applyAll l) k) := by
  induction l generalizing p with
  | nil => simp [hazardFree]
  | cons a l ih => simp [hazardFree, ih, Bool.and_assoc]

/-- In output mode the master's line level is the output latch (R27). -/
@[simp] theorem masterSda_outOd (c d : Bool) : Pins.masterSda ⟨c, d, .outOd⟩ = d := by cases d <;> rfl

/-- In input mode the master does not pull the line (R26). -/
@[simp] theorem masterSda_inPu (c d : Bool) : Pins.masterSda ⟨c, d, .inPu⟩ = true := rfl

/-- From the bus-idle pins, START is one event (R107 case (a)). -/
theorem wireEvents_startList : wireEvents Pins.idle startList = [.start] := rfl

/-- With the clock low in output mode, a byte is eight bits and the acknowledgment slot (R52, R56). -/
theorem wireEvents_sendByte (d : Bool) (v : Byte) :
    wireEvents ⟨false, d, .outOd⟩ (sendByte v) =
      [.bit (v.getLsbD 0), .bit (v.getLsbD 1), .bit (v.getLsbD 2), .bit (v.getLsbD 3), .bit (v.getLsbD 4),
       .bit (v.getLsbD 5), .bit (v.getLsbD 6), .bit (v.getLsbD 7), .ackSlot] := by
  simp [wireEvents, wireEvent, sendByte, bitList, ackList, Pins.apply]

/-- With the clock low in output mode, STOP is a stray bit 0 and the STOP condition (R109 case (a)). -/
theorem wireEvents_stopList (d : Bool) : wireEvents ⟨false, d, .outOd⟩ stopList = [.bit false, .stop] := by
  simp [wireEvents, wireEvent, stopList, Pins.apply]

/-- The eight bits of a byte in arrival order are the byte (R52, R56). -/
theorem byteOfBits_bits (v : Byte) :
    byteOfBits [v.getLsbD 0, v.getLsbD 1, v.getLsbD 2, v.getLsbD 3, v.getLsbD 4, v.getLsbD 5, v.getLsbD 6,
      v.getLsbD 7] = v := by
  revert v
  decide

/-- The reader takes a whole byte into the open transaction (R56). -/
theorem feedAll_byte (c : List (List Byte)) (bs : List Byte) (v : Byte) :
    Rx.feedAll ⟨some ⟨[], bs⟩, c⟩
      [.bit (v.getLsbD 0), .bit (v.getLsbD 1), .bit (v.getLsbD 2), .bit (v.getLsbD 3), .bit (v.getLsbD 4),
       .bit (v.getLsbD 5), .bit (v.getLsbD 6), .bit (v.getLsbD 7), .ackSlot] = ⟨some ⟨[], bs ++ [v]⟩, c⟩ := by
  have h := byteOfBits_bits v
  simp only [Rx.feedAll, Rx.feed, List.foldl, List.nil_append, List.cons_append, List.length_cons, List.length_nil,
    Nat.zero_add, Nat.reduceAdd, if_true, h]

end Sys2Proof.Machine
end

