-- ==== Sys2Proof/Laws/Decode.lean ====
section
/-! SUPPORT. What the decoder can answer in each code space. -/

namespace Sys2Proof

/-- A host command word decodes only to a host command. -/
theorem decodeWord_isHost {w : Word} {i : Instr} (h : decodeWord w = .ok i) : i.isHost = true := by
  unfold decodeWord at h
  repeat' split at h
  all_goals first | (injection h with h; subst h; rfl) | cases h

/-- A wire byte decodes only to a wire command byte's row. -/
theorem decodeWire_isWire {b : Byte} {i : Instr} (h : decodeWire b = .ok i) : i.isHost = false := by
  unfold decodeWire at h
  repeat' split at h
  all_goals first | (injection h with h; subst h; rfl) | cases h

/-- The decoder gives only well-formed instructions. -/
theorem decode_wf {c : Code} {i : Instr} (h : decode c = .ok i) : i.wf = true := by
  cases c with
  | word w =>
    simp only [decode, decodeWord] at h
    repeat' split at h
    all_goals first
      | (injection h with h; subst h; rfl)
      | (rename_i hl; injection h with h; subst h; simpa [Instr.wf] using hl.2)
      | cases h
  | wire b =>
    simp only [decode, decodeWire] at h
    repeat' split at h
    all_goals first
      | (injection h with h; subst h; rfl)
      | cases h

/-- A mask that keeps the opcode field keeps the opcode (R70, R72). -/
theorem opcField_of_mask {w m p : Word} (h : w &&& m = p) (hm : m.extractLsb' 28 4 = 15#4) :
    opcField w = opcField p := by
  subst h
  unfold opcField
  rw [BitVec.extractLsb'_and, hm]
  exact (BitVec.and_allOnes).symm

/-- A word with another opcode than a row's pattern does not select the row (R72). -/
theorem mask_ne_of_opcField {w m p : Word} (hm : m.extractLsb' 28 4 = 15#4) (h : opcField w ≠ opcField p) :
    w &&& m ≠ p := fun e => h (opcField_of_mask e hm)

/-- The low operand of a word is read back as it was placed (R71). -/
theorem extract_low_or {n : Nat} (p : Word) (b : BitVec n) (hn : n ≤ 32) (h : p.extractLsb' 0 n = 0#n) :
    (p ||| b.setWidth 32).extractLsb' 0 n = b := by
  rw [BitVec.extractLsb'_or, h, BitVec.zero_or]
  apply BitVec.eq_of_getLsbD_eq
  intro i hi
  simp [hi, show i < 32 by omega]

/-- A field above the low operand does not see it (R71). -/
theorem extract_high_or {n : Nat} (p : Word) (b : BitVec n) (k l : Nat) (hn : n ≤ k) :
    (p ||| b.setWidth 32).extractLsb' k l = p.extractLsb' k l := by
  have hz : (b.setWidth 32).extractLsb' k l = 0#l := by
    apply BitVec.eq_of_getLsbD_eq
    intro i hi
    simp [hi, BitVec.getLsbD_of_ge b (k + i) (by omega)]
  rw [BitVec.extractLsb'_or, hz, BitVec.or_zero]

end Sys2Proof
end

