-- ==== Sys2Proof/Laws/State.lean ====
section
/-! SUPPORT. What each update of the state leaves in each field: true by rfl, for simp. -/

namespace Sys2Proof.Machine

section Perform
variable (s : State) (a : PinAction)

@[simp] theorem State.perform_f : (s.perform a).f = s.f := by cases a <;> rfl
@[simp] theorem State.perform_cur : (s.perform a).cur = s.cur := by cases a <;> rfl
@[simp] theorem State.perform_upc : (s.perform a).upc = s.upc := by cases a <;> rfl
@[simp] theorem State.perform_upcEnd : (s.perform a).upcEnd = s.upcEnd := by cases a <;> rfl
@[simp] theorem State.perform_pins : (s.perform a).pins = s.pins.apply a := by cases a <;> rfl
@[simp] theorem State.perform_ill : (s.perform a).ill = s.ill := by cases a <;> rfl
@[simp] theorem State.perform_res : (s.perform a).res = s.res := by cases a <;> rfl
@[simp] theorem State.perform_hist : (s.perform a).hist = s.hist := by cases a <;> rfl
@[simp] theorem State.perform_host : (s.perform a).host = s.host := by cases a <;> rfl
@[simp] theorem State.perform_seg : (s.perform a).seg = s.seg := by cases a <;> rfl
@[simp] theorem State.perform_inst : (s.perform a).inst = s.inst := by cases a <;> rfl
@[simp] theorem State.perform_responder : (s.perform a).responder = s.responder := by cases a <;> rfl
@[simp] theorem State.perform_dev : (s.perform a).dev = s.dev := by cases a <;> rfl

@[simp] theorem State.entry_act : (s.entry a).act = a := by cases a <;> rfl

@[simp] theorem State.act_f : (s.act a).f = s.f := s.perform_f a
@[simp] theorem State.act_cur : (s.act a).cur = s.cur := s.perform_cur a
@[simp] theorem State.act_upc : (s.act a).upc = s.upc + 1 := rfl
@[simp] theorem State.act_upcEnd : (s.act a).upcEnd = s.upcEnd := s.perform_upcEnd a
@[simp] theorem State.act_pins : (s.act a).pins = s.pins.apply a := s.perform_pins a
@[simp] theorem State.act_ill : (s.act a).ill = s.ill := s.perform_ill a
@[simp] theorem State.act_res : (s.act a).res = s.res := s.perform_res a
@[simp] theorem State.act_hist : (s.act a).hist = s.entry a :: s.hist := rfl
@[simp] theorem State.act_host : (s.act a).host = s.host := s.perform_host a
@[simp] theorem State.act_seg : (s.act a).seg = s.seg := s.perform_seg a
@[simp] theorem State.act_inst : (s.act a).inst = s.inst := s.perform_inst a
@[simp] theorem State.act_responder : (s.act a).responder = s.responder := s.perform_responder a
@[simp] theorem State.act_dev : (s.act a).dev = s.dev.hear (wireEvent s.pins a) := rfl

end Perform

section Sample
variable (s : State)

@[simp] theorem State.act_smp_ack : (s.act .smp).ack = ackOf s.lineRead := rfl
@[simp] theorem State.act_clk_ack (b : Bool) : (s.act (.clk b)).ack = s.ack := rfl
@[simp] theorem State.act_dio_ack (b : Bool) : (s.act (.dio b)).ack = s.ack := rfl
@[simp] theorem State.act_mode_ack (m : PinMode) : (s.act (.mode m)).ack = s.ack := rfl
@[simp] theorem State.act_dly_ack : (s.act .dly).ack = s.ack := rfl
@[simp] theorem State.act_smp_answers : (s.act .smp).answers = s.answers.tail := rfl
@[simp] theorem State.act_clk_answers (b : Bool) : (s.act (.clk b)).answers = s.answers := rfl
@[simp] theorem State.act_dio_answers (b : Bool) : (s.act (.dio b)).answers = s.answers := rfl
@[simp] theorem State.act_mode_answers (m : PinMode) : (s.act (.mode m)).answers = s.answers := rfl
@[simp] theorem State.act_dly_answers : (s.act .dly).answers = s.answers := rfl
@[simp] theorem State.act_smp_draws : (s.act .smp).draws = s.draws + 1 := rfl
@[simp] theorem State.act_clk_draws (b : Bool) : (s.act (.clk b)).draws = s.draws := rfl
@[simp] theorem State.act_dio_draws (b : Bool) : (s.act (.dio b)).draws = s.draws := rfl
@[simp] theorem State.act_mode_draws (m : PinMode) : (s.act (.mode m)).draws = s.draws := rfl
@[simp] theorem State.act_dly_draws : (s.act .dly).draws = s.draws := rfl

end Sample

section Latch
variable (s : State) (w : Word) (l : List PinAction)

@[simp] theorem State.latch_f : (s.latch w l).f = s.f := rfl
@[simp] theorem State.latch_cur : (s.latch w l).cur = ⟨w, s.f⟩ := rfl
@[simp] theorem State.latch_upc : (s.latch w l).upc = 0#9 := rfl
@[simp] theorem State.latch_upcEnd : (s.latch w l).upcEnd = BitVec.ofNat 9 l.length := rfl
@[simp] theorem State.latch_pins : (s.latch w l).pins = s.pins := rfl
@[simp] theorem State.latch_ack : (s.latch w l).ack = s.ack := rfl
@[simp] theorem State.latch_ill : (s.latch w l).ill = false := rfl
@[simp] theorem State.latch_res : (s.latch w l).res = s.res := rfl
@[simp] theorem State.latch_hist : (s.latch w l).hist = s.hist := rfl
@[simp] theorem State.latch_host : (s.latch w l).host = s.host := rfl
@[simp] theorem State.latch_answers : (s.latch w l).answers = s.answers := rfl
@[simp] theorem State.latch_draws : (s.latch w l).draws = s.draws := rfl
@[simp] theorem State.latch_seg : (s.latch w l).seg = s.seg := rfl
@[simp] theorem State.latch_inst : (s.latch w l).inst = s.inst := rfl
@[simp] theorem State.latch_responder : (s.latch w l).responder = s.responder := rfl
@[simp] theorem State.latch_dev : (s.latch w l).dev = s.dev := rfl

end Latch

section Reset
variable (s : State)

@[simp] theorem State.applyReset_seg : s.applyReset.seg = s.seg := rfl
@[simp] theorem State.applyReset_inst : s.applyReset.inst = s.inst := rfl
@[simp] theorem State.applyReset_responder : s.applyReset.responder = s.responder := rfl

end Reset

section Device
variable (d : Device) (e : Option WireEvent)

@[simp] theorem Device.hear_mode : (d.hear e).mode = d.mode := rfl
@[simp] theorem Device.hear_dreg : (d.hear e).dreg = d.dreg := rfl
@[simp] theorem Device.hear_ctrl : (d.hear e).ctrl = d.ctrl := rfl
@[simp] theorem Device.hear_draws : (d.hear e).draws = d.draws := rfl
@[simp] theorem Device.hear_rx : (d.hear e).rx = d.rx.feedAll e.toList := rfl
@[simp] theorem Device.pop_mode : d.pop.mode = d.mode := rfl
@[simp] theorem Device.pop_dreg : d.pop.dreg = d.dreg := rfl
@[simp] theorem Device.pop_ctrl : d.pop.ctrl = d.ctrl := rfl
@[simp] theorem Device.pop_draws : d.pop.draws = d.draws := rfl
@[simp] theorem Device.pop_closed : d.pop.rx.closed = d.rx.closed.tail := rfl
@[simp] theorem Device.pop_txn : d.pop.rx.txn = d.rx.txn := rfl

end Device

end Sys2Proof.Machine
end

