-- ==== Sys2Proof/Laws/Step.lean ====
section
/-! SUPPORT. What each shared operation, each part of a step and the step itself can do, said once. -/

namespace Sys2Proof.Machine

/-- `andThen` answers a next state only through a next state of its first part. -/
theorem andThen_next {o : Host.Outcome State Fault Refusal} {k : State → Host.Outcome State Fault Refusal} {t : State}
    (h : andThen o k = .next t) : ∃ s, o = .next s ∧ k s = .next t := by
  cases o with
  | next s => exact ⟨s, rfl, h⟩
  | fault r => cases h
  | refused r => cases h

@[simp] theorem andThen_of_next (s : State) (k : State → Host.Outcome State Fault Refusal) :
    andThen (.next s) k = k s := rfl

/-- An idle block accepts (R34). -/
theorem accept_idle {s : State} (h : s.busy = false) (f : State → State) (w : Word) (l : List PinAction) :
    accept s f w l = .next ((f s).latch w l) := by simp [accept, h]

/-- A busy block holds the host: nothing changes (R34). -/
theorem accept_busy {s : State} (h : s.busy = true) (f : State → State) (w : Word) (l : List PinAction) :
    accept s f w l = .next s := by simp [accept, h]

/-- Accepting always answers a next state. -/
theorem accept_cases (s : State) (f : State → State) (w : Word) (l : List PinAction) :
    (s.busy = true ∧ accept s f w l = .next s) ∨ (s.busy = false ∧ accept s f w l = .next ((f s).latch w l)) := by
  cases h : s.busy
  · exact .inr ⟨rfl, accept_idle h f w l⟩
  · exact .inl ⟨rfl, accept_busy h f w l⟩

/-- An act step performs the action at `UPC` or stops where there is none (R33). -/
theorem actStep_cases (s : State) :
    (∃ a, (actions s.seg s.cur)[s.upc.toNat]? = some a ∧ actStep s = .next (s.act a)) ∨
      ((actions s.seg s.cur)[s.upc.toNat]? = none ∧ actStep s = .fault .noAction) := by
  unfold actStep
  split
  · next a h => exact .inl ⟨a, h, rfl⟩
  · next h => exact .inr ⟨h, rfl⟩

/-- An act step where `UPC` is the index of an action (R33). -/
theorem actStep_at {s : State} {a : PinAction} (h : (actions s.seg s.cur)[s.upc.toNat]? = some a) :
    actStep s = .next (s.act a) := by simp only [actStep, h]

/-- A wire command byte changes the remote device only. -/
theorem exec_wire {i : Instr} (h : i.isHost = false) (s : State) : ∃ d, exec i s = .next { s with dev := d } := by
  cases i <;> first | exact ⟨_, rfl⟩ | cases h

/-- Each of the 11 entries of the table can be read (R51). -/
theorem segRead_some (t : SegTable) {idx : Nat} (h : idx < 11) : ∃ c, segRead t idx = some c :=
  ⟨t[idx], Vector.getElem?_eq_getElem h⟩

/-- A host command is accepted: a well-formed one latches `CUR` after its immediate effect on `F` or `RES`. -/
theorem exec_host {i : Instr} (h : i.isHost = true) (hw : i.wf = true) {s : State} (hb : s.busy = false) :
    ∃ f r, exec i s = .next (({ s with f := f, res := r } : State).latch (encodeWord i) (commandActions s.seg i f)) := by
  cases i with
  | lut lidx =>
    obtain ⟨c, hc⟩ := segRead_some s.seg (show lidx.toNat < 11 by revert hw; revert lidx; decide)
    exact ⟨s.f, c, by simp only [exec, execLut, hc]; rw [accept_idle hb]; rfl⟩
  | setf idx imm8 => exact ⟨s.f.set idx imm8, s.res, by simp only [exec, execSetf]; rw [accept_idle hb]; rfl⟩
  | start | stop | sendb _ | wrf _ | brt _ | rend _ _ | init => exact ⟨s.f, s.res, accept_idle hb _ _ _⟩
  | wDataAuto | wDataFixed | wAddr _ | wCtrlOn _ => cases h

/-- The remote device runs wire command bytes only (R79). -/
theorem deviceWork_isWire {d : Device} {i : Instr} (h : deviceWork d = .run i) : i.isHost = false := by
  unfold deviceWork at h
  split at h
  · cases h
  · cases h
  · split at h
    · next j hj => injection h with h; subst h; exact decodeWire_isWire hj
    · split at h <;> cases h

/-- The remote device's part of a step changes the remote device only, and never stops (R7, R195). -/
theorem deviceStep_dev (s : State) : ∃ d, deviceStep s = .next { s with dev := d } := by
  unfold deviceStep
  split
  · exact ⟨s.dev, rfl⟩
  · exact ⟨_, rfl⟩
  · next i h => exact exec_wire (deviceWork_isWire h) s
  · exact ⟨_, rfl⟩
  · exact ⟨_, rfl⟩

/-- A wire command byte leaves the transaction being received (R56, R58). -/
theorem exec_wire_txn {i : Instr} (h : i.isHost = false) {s t : State} (he : exec i s = .next t) :
    t.dev.rx.txn = s.dev.rx.txn := by
  cases i <;> first
    | (simp only [exec, execWDataAuto, execWDataFixed, execWAddr, execWCtrlOn, State.deviceAlone] at he
       injection he with he
       subst he
       dsimp only
       split <;> rfl)
    | cases h

/-- The remote device's part of a step leaves the transaction being received (R56, R58). -/
theorem deviceStep_txn {s t : State} (h : deviceStep s = .next t) : t.dev.rx.txn = s.dev.rx.txn := by
  unfold deviceStep at h
  split at h
  · injection h with h; rw [h]
  · injection h with h; rw [← h]; rfl
  · next i hi => exact exec_wire_txn (deviceWork_isWire hi) h
  · injection h with h; rw [← h]; rfl
  · injection h with h; rw [← h]; rfl

/-- The host's move changes nothing but the list of its moves. -/
theorem State.hostMoved_host (s : State) : ∃ h, s.hostMoved = { s with host := h } := by
  unfold State.hostMoved
  split
  · exact ⟨_, rfl⟩
  · exact ⟨_, rfl⟩
  · split <;> exact ⟨_, rfl⟩
  · exact ⟨s.host, rfl⟩

/-- A step is the device's part, which leaves the transaction being received, and then the block's. -/
theorem step_eq_txn (s : State) : ∃ d, d.rx.txn = s.dev.rx.txn ∧ step s = blockStep { s with dev := d } := by
  obtain ⟨d, h⟩ := deviceStep_dev s
  exact ⟨d, deviceStep_txn h, by simp [step, h]⟩

/-- A step is the device's part and then the block's. -/
theorem step_eq (s : State) : ∃ d, step s = blockStep { s with dev := d } :=
  let ⟨d, _, h⟩ := step_eq_txn s
  ⟨d, h⟩

/-- Reset overrides both step kinds (R200). -/
theorem blockStep_reset {s : State} {rest : List HostMove} (h : s.host = .rst :: rest) :
    blockStep s = .next ({ s with host := rest } : State).applyReset := by
  simp [blockStep, blockWork, State.hostMoved, h]

/-- An idle block that is presented a word accepts it (R34). -/
theorem blockStep_accept {s : State} {w : Word} {rest : List HostMove} (hb : s.busy = false)
    (h : s.host = .present w :: rest) : blockStep s = acceptWord w { s with host := rest } := by
  simp [blockStep, blockWork, State.hostMoved, h, hb]

/-- An idle block without a host move waits. -/
theorem blockStep_idle {s : State} (hb : s.busy = false) (h : s.host = []) : blockStep s = .next s := by
  simp [blockStep, blockWork, State.hostMoved, h, hb]

/-- A busy block acts unless reset is asserted (R33); a presented word stays presented, another move is used up. -/
theorem blockStep_busy {s : State} (hb : s.busy = true) (hr : ∀ rest, s.host ≠ .rst :: rest) :
    ∃ h, blockStep s = actStep { s with host := h } ∧ (s.host = [] → h = []) ∧
      ∀ w rest, s.host = .present w :: rest → h = s.host := by
  rcases hh : s.host with _ | ⟨m, r⟩
  · exact ⟨[], by simp only [blockStep, blockWork, State.hostMoved, hh, hb, if_true]; rw [← hh], by simp, by simp⟩
  · cases m with
    | rst => exact absurd hh (hr r)
    | quiet => exact ⟨r, by simp [blockStep, blockWork, State.hostMoved, hh, hb], by simp, by simp⟩
    | present w => exact ⟨.present w :: r, by simp [blockStep, blockWork, State.hostMoved, hh, hb], by simp, by simp⟩

/-- A state with another remote device is as busy. -/
@[simp] theorem State.busy_dev (s : State) (d : Device) : ({ s with dev := d } : State).busy = s.busy := rfl

/-- A state with another list of host moves is as busy. -/
@[simp] theorem State.busy_host (s : State) (h : List HostMove) : ({ s with host := h } : State).busy = s.busy := rfl

/-- Everything the block's part of a step can do (R33, R34, R77, R200). -/
theorem blockStep_cases (s : State) :
    blockStep s = .next s.hostMoved.applyReset ∨
    (s.busy = true ∧ blockStep s = actStep s.hostMoved) ∨
    (s.busy = false ∧ ∃ w i, decode (.word w) = .ok i ∧ i.isHost = true ∧ i.wf = true ∧
      blockStep s = exec i s.hostMoved) ∨
    (s.busy = false ∧ blockStep s = .next (acceptIllegal s.hostMoved)) ∨
    (s.busy = false ∧ blockStep s = .next s.hostMoved) := by
  have accepted : ∀ w, blockWork s = .accept w → s.busy = false := by
    intro w h
    unfold blockWork at h
    cases hb : s.busy
    · rfl
    · simp only [hb] at h
      split at h <;> cases h
  have acting : blockWork s = .act → s.busy = true := by
    intro h
    unfold blockWork at h
    cases hb : s.busy
    · simp only [hb] at h
      split at h <;> cases h
    · rfl
  have waiting : blockWork s = .wait → s.busy = false := by
    intro h
    unfold blockWork at h
    cases hb : s.busy
    · rfl
    · simp only [hb] at h
      split at h <;> cases h
  unfold blockStep
  split
  · exact .inl rfl
  · next h => exact .inr (.inl ⟨acting h, rfl⟩)
  · next w h =>
    unfold acceptWord
    split
    · next i hi =>
      exact .inr (.inr (.inl ⟨accepted w h, w, i, hi, decodeWord_isHost hi, decode_wf hi, rfl⟩))
    · exact .inr (.inr (.inr (.inl ⟨accepted w h, rfl⟩)))
  · next h => exact .inr (.inr (.inr (.inr ⟨waiting h, rfl⟩)))

/-- Everything a step can do: reset the block, perform an action, accept a command, or change at most `ILL`; the remote
device and the host's moves aside (R33, R34, R77, R200). -/
theorem step_cases {s t : State} (h : step s = .next t) :
    ∃ d hm,
      t = ({ s with dev := d, host := hm } : State).applyReset ∨
      (s.busy = true ∧ ∃ a, (actions s.seg s.cur)[s.upc.toNat]? = some a ∧
        t = ({ s with dev := d, host := hm } : State).act a) ∨
      (s.busy = false ∧ ∃ i f r, i.isHost = true ∧ i.wf = true ∧
        t = ({ s with dev := d, host := hm, f := f, res := r } : State).latch (encodeWord i) (commandActions s.seg i f)) ∨
      (s.busy = false ∧ ∃ b, t = { s with dev := d, host := hm, ill := b }) := by
  obtain ⟨d, hd⟩ := step_eq s
  obtain ⟨hm, hh⟩ := State.hostMoved_host { s with dev := d }
  refine ⟨d, hm, ?_⟩
  rw [h] at hd
  rcases blockStep_cases { s with dev := d } with c | ⟨hb, c⟩ | ⟨hb, w, i, -, hi, hw, c⟩ | ⟨hb, c⟩ | ⟨hb, c⟩ <;>
    rw [c, hh] at hd
  · injection hd with hd
    exact .inl hd
  · rcases actStep_cases ({ s with dev := d, host := hm } : State) with ⟨a, ha, e⟩ | ⟨-, e⟩ <;> rw [e] at hd
    · injection hd with hd
      exact .inr (.inl ⟨hb, a, ha, hd⟩)
    · cases hd
  · obtain ⟨f, r, e⟩ := exec_host hi hw (s := { s with dev := d, host := hm }) hb
    rw [e] at hd
    injection hd with hd
    exact .inr (.inr (.inl ⟨hb, i, f, r, hi, hw, hd⟩))
  · injection hd with hd
    have hb' : ({ s with dev := d, host := hm } : State).busy = false := hb
    rw [acceptIllegal, hb'] at hd
    exact .inr (.inr (.inr ⟨hb, true, hd⟩))
  · injection hd with hd
    exact .inr (.inr (.inr ⟨hb, s.ill, hd⟩))

/-- Without a closed transaction the remote device's part of a step is nothing (R58). -/
theorem deviceStep_none {s : State} (h : s.dev.rx.closed = []) : deviceStep s = .next s := by
  simp [deviceStep, deviceWork, h]

/-- A step of a busy block that nothing else disturbs is its act step (R33). -/
theorem step_act {s : State} {a : PinAction} (hb : s.busy = true) (hh : s.host = []) (hd : s.dev.rx.closed = [])
    (ha : (actions s.seg s.cur)[s.upc.toNat]? = some a) : step s = .next (s.act a) := by
  obtain ⟨h, hs, h0, -⟩ := blockStep_busy hb (by simp [hh])
  rw [step, deviceStep_none hd, andThen_of_next, hs, h0 hh, ← hh]
  exact actStep_at ha

end Sys2Proof.Machine
end

