-- ==== Sys2Proof/Laws/Sequencer.lean ====
section
/-! SUPPORT. What the sequencer's agreement with its command (`SeqInv`) gives at once. -/

namespace Sys2Proof.Machine

/-- Busy as an inequality of numbers (R23). -/
theorem State.busy_iff (s : State) : s.busy = true ↔ s.upc.toNat < s.upcEnd.toNat := by
  simp [State.busy, BitVec.lt_def]

/-- Idle as an inequality of numbers (R23). -/
theorem State.idle_iff (s : State) : s.busy = false ↔ s.upcEnd.toNat ≤ s.upc.toNat := by
  simp [State.busy, BitVec.lt_def]

/-- A busy sequencer that agrees with its command points at an action (R33). -/
theorem State.SeqInv.action {s : State} (hi : s.SeqInv) (hb : s.busy = true) :
    ∃ a, (actions s.seg s.cur)[s.upc.toNat]? = some a := by
  have hlt : s.upc.toNat < (actions s.seg s.cur).length := by
    rw [← hi.1]
    exact s.busy_iff.mp hb
  exact ⟨_, List.getElem?_eq_getElem hlt⟩

/-- The remote device is no part of the agreement. -/
theorem State.SeqInv.dev {s : State} (hi : s.SeqInv) (d : Device) : ({ s with dev := d } : State).SeqInv := hi

/-- The host's moves are no part of the agreement. -/
theorem State.SeqInv.host {s : State} (hi : s.SeqInv) (h : List HostMove) : ({ s with host := h } : State).SeqInv := hi

/-- `UPC` advances without wrapping while the block is busy (R22, R31). -/
theorem State.SeqInv.upc_succ {s : State} (hi : s.SeqInv) (hb : s.busy = true) :
    (s.upc + 1).toNat = s.upc.toNat + 1 := by
  have h1 := s.busy_iff.mp hb
  have h2 := actions_length_le s.seg s.cur
  rw [← hi.1] at h2
  have h3 : s.upc.toNat + 1 < 2 ^ 9 := by omega
  simpa [BitVec.toNat_add] using Nat.mod_eq_of_lt h3

/-- An act step keeps the agreement. -/
theorem State.SeqInv.act {s : State} (hi : s.SeqInv) (hb : s.busy = true) {a : PinAction}
    (ha : (actions s.seg s.cur)[s.upc.toNat]? = some a) : (s.act a).SeqInv := by
  have h1 := s.busy_iff.mp hb
  refine ⟨by simpa using hi.1, ?_, ?_⟩
  · simp only [State.act_upc, State.act_upcEnd, hi.upc_succ hb]
    omega
  · simp only [State.act_seg, State.act_cur, State.act_pins, State.act_upc, hi.upc_succ hb]
    rw [List.take_add_one, ha, modeAfter_append, ← hi.2.2]
    cases a <;> rfl

end Sys2Proof.Machine
end

