-- ==== Sys2Proof/Laws/ActAll.lean ====
section
/-! SUPPORT. What a list of actions performed one after the other leaves in each field, and what the samples of the
primitive lists leave in `ACK` and in the remote device's answers. -/

namespace Sys2Proof.Machine

section Fields
variable (s : State)

@[simp] theorem State.actAll_nil : s.actAll [] = s := rfl
@[simp] theorem State.actAll_cons (a : PinAction) (l : List PinAction) : s.actAll (a :: l) = (s.act a).actAll l := rfl
@[simp] theorem State.actAll_append (l m : List PinAction) : s.actAll (l ++ m) = (s.actAll l).actAll m :=
  List.foldl_append

variable (l : List PinAction)

@[simp] theorem State.actAll_f : (s.actAll l).f = s.f := by induction l generalizing s <;> simp [*]
@[simp] theorem State.actAll_cur : (s.actAll l).cur = s.cur := by induction l generalizing s <;> simp [*]
@[simp] theorem State.actAll_upcEnd : (s.actAll l).upcEnd = s.upcEnd := by induction l generalizing s <;> simp [*]
@[simp] theorem State.actAll_ill : (s.actAll l).ill = s.ill := by induction l generalizing s <;> simp [*]
@[simp] theorem State.actAll_res : (s.actAll l).res = s.res := by induction l generalizing s <;> simp [*]
@[simp] theorem State.actAll_seg : (s.actAll l).seg = s.seg := by induction l generalizing s <;> simp [*]
@[simp] theorem State.actAll_inst : (s.actAll l).inst = s.inst := by induction l generalizing s <;> simp [*]
@[simp] theorem State.actAll_responder : (s.actAll l).responder = s.responder := by
  induction l generalizing s <;> simp [*]
@[simp] theorem State.actAll_host : (s.actAll l).host = s.host := by induction l generalizing s <;> simp [*]
@[simp] theorem State.actAll_pins : (s.actAll l).pins = s.pins.applyAll l := by induction l generalizing s <;> simp [*]
@[simp] theorem State.actAll_mode : (s.actAll l).dev.mode = s.dev.mode := by induction l generalizing s <;> simp [*]
@[simp] theorem State.actAll_dreg : (s.actAll l).dev.dreg = s.dev.dreg := by induction l generalizing s <;> simp [*]
@[simp] theorem State.actAll_ctrl : (s.actAll l).dev.ctrl = s.dev.ctrl := by induction l generalizing s <;> simp [*]
@[simp] theorem State.actAll_devDraws : (s.actAll l).dev.draws = s.dev.draws := by
  induction l generalizing s <;> simp [*]

/-- `UPC` counts the actions, modulo its width. -/
theorem State.actAll_upc : (s.actAll l).upc = s.upc + BitVec.ofNat 9 l.length := by
  induction l generalizing s with
  | nil => simp
  | cons a l ih =>
    rw [State.actAll_cons, ih, State.act_upc, List.length_cons, BitVec.add_assoc]
    congr 1
    apply BitVec.eq_of_toNat_eq
    simp [Nat.add_comm]

@[simp] theorem State.performed_act (a : PinAction) : (s.act a).performed = s.performed ++ [a] := by
  simp [State.performed, State.trace]

/-- The trace grows by the list (R36). -/
@[simp] theorem State.actAll_performed : (s.actAll l).performed = s.performed ++ l := by
  induction l generalizing s <;> simp [*]

/-- The remote device's receiver hears the list's wire events (R56). -/
theorem State.actAll_rx : (s.actAll l).dev.rx = s.dev.rx.feedAll (wireEvents s.pins l) := by
  induction l generalizing s with
  | nil => rfl
  | cons a l ih => simp [ih, wireEvents, Rx.feedAll_append]

end Fields

section Samples
variable (s : State)

/-- The next sample's answer, unless it is the reference remote device's (R27, R58). -/
theorem State.remoteLow_eq (h : s.responder ≠ .device) : s.remoteLow = s.answerAt 0 := by
  unfold State.remoteLow State.answerAt State.oracleLow
  cases hr : s.responder
  · cases s.answers <;> rfl
  · exact absurd hr h
  · rfl

/-- The reference remote device's answer (R58). -/
theorem State.remoteLow_device (h : s.responder = .device) : s.remoteLow = s.deviceLow := by
  rw [State.remoteLow, h]

/-- A list without a sample leaves `ACK` and the answers. -/
theorem State.actAll_noSample (l : List PinAction) (h : PinAction.smp ∉ l) :
    (s.actAll l).ack = s.ack ∧ (s.actAll l).answers = s.answers ∧ (s.actAll l).draws = s.draws := by
  induction l generalizing s with
  | nil => simp
  | cons a l ih =>
    simp only [List.mem_cons, not_or] at h
    obtain ⟨h1, h2, h3⟩ := ih (s.act a) h.2
    rw [State.actAll_cons, h1, h2, h3]
    cases a <;> first | exact ⟨rfl, rfl, rfl⟩ | exact absurd rfl h.1

@[simp] theorem State.ack_startList : (s.actAll startList).ack = s.ack := (s.actAll_noSample _ (by decide)).1
@[simp] theorem State.ack_stopList : (s.actAll stopList).ack = s.ack := (s.actAll_noSample _ (by decide)).1
@[simp] theorem State.answers_startList : (s.actAll startList).answers = s.answers :=
  (s.actAll_noSample _ (by decide)).2.1
@[simp] theorem State.answers_stopList : (s.actAll stopList).answers = s.answers :=
  (s.actAll_noSample _ (by decide)).2.1
@[simp] theorem State.draws_startList : (s.actAll startList).draws = s.draws := (s.actAll_noSample _ (by decide)).2.2
@[simp] theorem State.draws_stopList : (s.actAll stopList).draws = s.draws := (s.actAll_noSample _ (by decide)).2.2

/-- The actions of a byte before its sample: steps 1 to 4 of R110. -/
def beforeSample (v : Byte) : List PinAction := (sendByte v).take 54

/-- The actions of a byte after its sample: steps 6 and 7 of R110. -/
def afterSample : List PinAction := [.clk false, .dly, .mode .outOd]

theorem sendByte_split (v : Byte) : sendByte v = beforeSample v ++ (.smp :: afterSample) := rfl

theorem beforeSample_noSample (v : Byte) : PinAction.smp ∉ beforeSample v := by
  simp [beforeSample, sendByte, bitList, ackList]

/-- At the sample the clock is high and the data pin is an input (R105, R113). -/
theorem applyAll_beforeSample (p : Pins) (v : Byte) : p.applyAll (beforeSample v) = ⟨true, v.getLsbD 7, .inPu⟩ := rfl

/-- In output mode, a byte up to its sample is eight bits and the acknowledgment slot (R52, R56). -/
theorem wireEvents_beforeSample (c d : Bool) (v : Byte) :
    wireEvents ⟨c, d, .outOd⟩ (beforeSample v) =
      [.bit (v.getLsbD 0), .bit (v.getLsbD 1), .bit (v.getLsbD 2), .bit (v.getLsbD 3), .bit (v.getLsbD 4),
       .bit (v.getLsbD 5), .bit (v.getLsbD 6), .bit (v.getLsbD 7), .ackSlot] := by
  cases c <;> simp [wireEvents, wireEvent, beforeSample, sendByte, bitList, ackList, Pins.apply]

/-- A byte's bits are taken as a byte iff a transaction is open with no bit pending (R56). -/
theorem Rx.byteTaken_byte (r : Rx) (b0 b1 b2 b3 b4 b5 b6 b7 : Bool) :
    (r.feedAll [.bit b0, .bit b1, .bit b2, .bit b3, .bit b4, .bit b5, .bit b6, .bit b7, .ackSlot]).byteTaken = true ↔
      ∃ bs, r.txn = some ⟨[], bs⟩ := by
  obtain ⟨_ | ⟨bits, bytes⟩, c⟩ := r
  · simp [Rx.feedAll, Rx.feed, Rx.byteTaken]
  · cases bits <;> simp [Rx.feedAll, Rx.feed, Rx.byteTaken]

/-- START in output mode opens a transaction with no bit pending, whatever the levels at entry (R106, R107, R56). -/
theorem txn_startList (r : Rx) (c d : Bool) :
    (r.feedAll (wireEvents ⟨c, d, .outOd⟩ startList)).txn = some ⟨[], []⟩ := by
  cases c <;> cases d <;>
    simp [wireEvents, wireEvent, startList, Pins.apply, Pins.masterSda, Pins.masterLow, Rx.feedAll, Rx.feed]

/-- What a byte leaves in `ACK`, the answers and the draw count: the answer to its one sample (R105, R111). -/
theorem State.actAll_sendByte (v : Byte) :
    (s.actAll (sendByte v)).ack = (s.actAll (beforeSample v)).remoteLow ∧
      (s.actAll (sendByte v)).answers = s.answers.tail ∧ (s.actAll (sendByte v)).draws = s.draws + 1 := by
  obtain ⟨-, h2, h3⟩ := s.actAll_noSample (beforeSample v) (beforeSample_noSample v)
  have hp : (s.actAll (beforeSample v)).pins = ⟨true, v.getLsbD 7, .inPu⟩ := by
    rw [State.actAll_pins, applyAll_beforeSample]
  rw [sendByte_split, State.actAll_append, State.actAll_cons]
  generalize s.actAll (beforeSample v) = t at *
  obtain ⟨k1, k2, k3⟩ := (t.act .smp).actAll_noSample afterSample (by decide)
  rw [k1, k2, k3, State.act_smp_ack, State.act_smp_answers, State.act_smp_draws, h2, h3]
  refine ⟨?_, rfl, rfl⟩
  simp [ackOf, State.lineRead, Pins.sdaLine, Pins.masterLow, hp]

/-- The acknowledgment of a byte from the oracle or the mock, whatever the byte (R111 case (c), R58). -/
theorem State.ack_sendByte (h : s.responder ≠ .device) (v : Byte) : (s.actAll (sendByte v)).ack = s.answerAt 0 := by
  obtain ⟨-, h2, h3⟩ := s.actAll_noSample (beforeSample v) (beforeSample_noSample v)
  rw [(s.actAll_sendByte v).1, State.remoteLow_eq _ (by simpa using h)]
  simp [State.answerAt, h2, h3]

/-- The reference remote device acknowledges a byte iff it receives it: with a transaction open and no bit pending (R58). -/
theorem State.ack_sendByte_device (h : s.responder = .device) (hm : s.pins.dioMode = .outOd) (v : Byte) :
    (s.actAll (sendByte v)).ack = true ↔ ∃ bs, s.dev.rx.txn = some ⟨[], bs⟩ := by
  have hp : (s.actAll (beforeSample v)).pins = ⟨true, v.getLsbD 7, .inPu⟩ := by
    rw [State.actAll_pins, applyAll_beforeSample]
  rcases hs : s.pins with ⟨c, d, m⟩
  rw [hs] at hm
  subst hm
  rw [(s.actAll_sendByte v).1, State.remoteLow_device _ (by simpa using h), State.deviceLow, hp, State.actAll_rx, hs,
    wireEvents_beforeSample]
  simpa only [decide_true, Bool.true_and] using Rx.byteTaken_byte _ _ _ _ _ _ _ _ _

@[simp] theorem State.answers_sendByte (v : Byte) : (s.actAll (sendByte v)).answers = s.answers.tail :=
  (s.actAll_sendByte v).2.1
@[simp] theorem State.draws_sendByte (v : Byte) : (s.actAll (sendByte v)).draws = s.draws + 1 :=
  (s.actAll_sendByte v).2.2

/-- Each byte uses up one answer (R35). -/
@[simp] theorem State.answerAt_sendByte (v : Byte) (k : Nat) :
    (s.actAll (sendByte v)).answerAt k = s.answerAt (k + 1) := by
  simp only [State.answerAt, State.answers_sendByte, State.draws_sendByte, State.actAll_inst, State.actAll_responder,
    List.getElem?_tail]
  rw [Nat.add_assoc, Nat.add_comm 1 k]

/-- In output mode, a byte is eight bits and the acknowledgment slot, whatever the levels at entry (R52, R56). -/
theorem wireEvents_sendByte_outOd (c d : Bool) (v : Byte) :
    wireEvents ⟨c, d, .outOd⟩ (sendByte v) =
      [.bit (v.getLsbD 0), .bit (v.getLsbD 1), .bit (v.getLsbD 2), .bit (v.getLsbD 3), .bit (v.getLsbD 4),
       .bit (v.getLsbD 5), .bit (v.getLsbD 6), .bit (v.getLsbD 7), .ackSlot] := by
  cases c <;> simp [wireEvents, wireEvent, sendByte, bitList, ackList, Pins.apply]

/-- After START in output mode the device receives (R106, R56). -/
theorem State.receiving_startList (h : s.pins.dioMode = .outOd) : (s.actAll startList).Receiving := by
  rcases hs : s.pins with ⟨c, d, m⟩
  rw [hs] at h
  subst h
  exact ⟨by rw [State.actAll_pins, hs]; rfl, [], by rw [State.actAll_rx, hs, txn_startList]⟩

/-- A device that receives goes on receiving after a byte (R56). -/
theorem State.Receiving.sendByte {s : State} (h : s.Receiving) (v : Byte) : (s.actAll (sendByte v)).Receiving := by
  obtain ⟨h, bytes, hb⟩ := h
  rcases hs : s.pins with ⟨c, d, m⟩
  rw [hs] at h
  subst h
  refine ⟨by rw [State.actAll_pins, hs]; rfl, bytes ++ [v], ?_⟩
  rw [State.actAll_rx, hs, wireEvents_sendByte_outOd]
  rcases hr : s.dev.rx with ⟨t, cl⟩
  rw [hr] at hb
  simp only at hb
  subst hb
  rw [feedAll_byte]

/-- The acknowledgment of a byte the device receives, if it is the device that answers (R58, R105). -/
theorem State.ack_sendByte_received (h : s.responder = .device → s.Receiving) (v : Byte) :
    (s.actAll (sendByte v)).ack = s.answerAt 0 := by
  by_cases hd : s.responder = .device
  · rw [(s.ack_sendByte_device hd (h hd).1 v).2 (h hd).2]
    simp [State.answerAt, hd]
  · exact s.ack_sendByte hd v

@[simp] theorem State.answerAt_startList (k : Nat) : (s.actAll startList).answerAt k = s.answerAt k := by
  simp [State.answerAt]
@[simp] theorem State.answerAt_stopList (k : Nat) : (s.actAll stopList).answerAt k = s.answerAt k := by
  simp [State.answerAt]

/-- `Wrf` leaves in `ACK` the answer to its sixth sample, whatever the pins at entry (R135, R58). -/
theorem State.ack_wrfList (off : BitVec 2) (f : Frame) : (s.actAll (wrfList off f)).ack = s.answerAt 5 := by
  simp only [wrfList, State.actAll_append, State.ack_stopList]
  rw [State.ack_sendByte_received]
  · simp
  · exact fun _ => ((((State.receiving_startList _ (by simp)).sendByte _).sendByte _).sendByte _).sendByte _

/-- `Brt` leaves in `ACK` the answer to its one sample (R138, R58). -/
theorem State.ack_brtList (h : s.responder = .device → s.pins.dioMode = .outOd) (l : Byte) :
    (s.actAll (brtList l)).ack = s.answerAt 0 := by
  simp only [brtList, State.actAll_append, State.ack_stopList]
  rw [State.ack_sendByte_received]
  · simp
  · exact fun hd => State.receiving_startList _ (h (by simpa using hd))

end Samples

end Sys2Proof.Machine
end

