-- ==== Sys2Proof/Laws/PerInstr.lean ====
section
/-! SUPPORT. Per instruction: the code of a well-formed instruction matches its row of the opcode table (R72, R79). -/

namespace Sys2Proof

/-- The mask and the pattern of an instruction's row in spec/opcode_table.json, in the space of the row. -/
def tableRow : Instr → Code × Code
  | .start => (.word 0xFFFFFFFF#32, .word 0x10000000#32)
  | .stop => (.word 0xFFFFFFFF#32, .word 0x20000000#32)
  | .sendb _ => (.word 0xFFFFFF00#32, .word 0x30000000#32)
  | .setf _ _ => (.word 0xFFFFFC00#32, .word 0x40000000#32)
  | .wrf _ => (.word 0xFFFFFFFC#32, .word 0x50000000#32)
  | .brt _ => (.word 0xFFFFFF00#32, .word 0x60000000#32)
  | .rend _ _ => (.word 0xFFFE0000#32, .word 0x70000000#32)
  | .init => (.word 0xFFFFFFFF#32, .word 0x80000000#32)
  | .lut _ => (.word 0xFFFFFFF0#32, .word 0x90000000#32)
  | .wDataAuto => (.wire 0xFF#8, .wire 0x40#8)
  | .wDataFixed => (.wire 0xFF#8, .wire 0x44#8)
  | .wAddr _ => (.wire 0xFC#8, .wire 0xC0#8)
  | .wCtrlOn _ => (.wire 0xF8#8, .wire 0x88#8)

/-- A code masked by a row's mask is the row's pattern. -/
def Code.matchesRow : Code → Code × Code → Prop
  | .word w, (.word m, .word p) => w &&& m = p
  | .wire b, (.wire m, .wire p) => b &&& m = p
  | _, _ => False

/-- The instruction's code selects its own row. -/
def Laws.Encoding.Statement (i : Instr) : Prop := (encode i).matchesRow (tableRow i)

namespace Laws.Encoding

/-- Masking a word made of a pattern and operand bits that the mask clears leaves the pattern. -/
theorem mask_or {m p x : Word} (hp : p &&& m = p) (hx : x &&& m = 0#32) : (p ||| x) &&& m = p := by
  rw [BitVec.and_or_distrib_right, hp, hx, BitVec.or_zero]

theorem setWidth_mask {n : Nat} (v : BitVec n) (m : Word) (h : ∀ i, i < n → m.getLsbD i = false) :
    v.setWidth 32 &&& m = 0#32 := by
  ext i hi
  by_cases hn : i < n
  · have := h i hn
    simp_all [BitVec.getLsbD_eq_getElem]
  · simp [BitVec.getLsbD_of_ge v i (by omega)]

theorem start : Statement .start := rfl
theorem stop : Statement .stop := rfl
theorem sendb (imm8 : Byte) : Statement (.sendb imm8) :=
  mask_or (by decide) (setWidth_mask _ _ (by decide))
theorem setf (idx : BitVec 2) (imm8 : Byte) : Statement (.setf idx imm8) := by
  show (0x40000000#32 ||| (idx.setWidth 32 <<< 8) ||| imm8.setWidth 32) &&& 0xFFFFFC00#32 = 0x40000000#32
  rw [BitVec.or_assoc]
  refine mask_or (by decide) ?_
  rw [BitVec.and_or_distrib_right, setWidth_mask _ _ (by decide), BitVec.or_zero]
  revert idx; decide
theorem wrf (off : BitVec 2) : Statement (.wrf off) :=
  mask_or (by decide) (setWidth_mask _ _ (by decide))
theorem brt (imm8 : Byte) : Statement (.brt imm8) :=
  mask_or (by decide) (setWidth_mask _ _ (by decide))
theorem rend (value : BitVec 16) (colon : BitVec 1) : Statement (.rend value colon) := by
  show (0x70000000#32 ||| (colon.setWidth 32 <<< 16) ||| value.setWidth 32) &&& 0xFFFE0000#32 = 0x70000000#32
  rw [BitVec.or_assoc]
  refine mask_or (by decide) ?_
  rw [BitVec.and_or_distrib_right, setWidth_mask _ _ (by decide), BitVec.or_zero]
  revert colon; decide
theorem init : Statement .init := rfl
theorem lut (lidx : BitVec 4) : Statement (.lut lidx) :=
  mask_or (by decide) (setWidth_mask _ _ (by decide))
theorem wDataAuto : Statement .wDataAuto := rfl
theorem wDataFixed : Statement .wDataFixed := rfl
theorem wAddr (off : BitVec 2) : Statement (.wAddr off) := by
  show (0xC0#8 ||| off.setWidth 8) &&& 0xFC#8 = 0xC0#8
  revert off; decide
theorem wCtrlOn (lvl : BitVec 3) : Statement (.wCtrlOn lvl) := by
  show (0x88#8 ||| lvl.setWidth 8) &&& 0xF8#8 = 0x88#8
  revert lvl; decide

end Laws.Encoding

end Sys2Proof
end

