-- ==== Sys2Proof/Laws/Run.lean ====
section
/-! SUPPORT. Runs of the machine, one step at a time. -/

namespace Sys2Proof.Machine

/-- A run of no step. -/
theorem run_zero (s : State) : Host.Core.run Sys2Proof.core 0 s = .next s := rfl

/-- A run whose first step answers a next state goes on from there. -/
theorem run_succ {s t : State} (h : step s = .next t) (n : Nat) :
    Host.Core.run Sys2Proof.core (n + 1) s = Host.Core.run Sys2Proof.core n t := by
  have hc : Sys2Proof.core.step s = .next t := h
  simp only [Host.Core.run]
  rw [hc]

/-- A run in two parts. -/
theorem run_add {s t : State} {m : Nat} (h : Host.Core.run Sys2Proof.core m s = .next t) (n : Nat) :
    Host.Core.run Sys2Proof.core (m + n) s = Host.Core.run Sys2Proof.core n t := by
  induction m generalizing s with
  | zero =>
    injection h with h
    rw [Nat.zero_add, h]
  | succ m ih =>
    cases hs : step s with
    | next u =>
      rw [run_succ hs] at h
      rw [Nat.add_right_comm, run_succ hs, ih h]
    | fault r =>
      have hc : Sys2Proof.core.step s = .fault r := hs
      simp only [Host.Core.run] at h
      rw [hc] at h
      cases h
    | refused r =>
      have hc : Sys2Proof.core.step s = .refused r := hs
      simp only [Host.Core.run] at h
      rw [hc] at h
      cases h

/-- A busy block that reset does not touch performs the action at `UPC` in a step, whatever the remote device does
beside it (R33); the transaction being received is left to the action. -/
theorem step_busy {s : State} (hi : s.SeqInv) (hb : s.busy = true) (hh : s.host = []) :
    ∃ a d, d.rx.txn = s.dev.rx.txn ∧ (actions s.seg s.cur)[s.upc.toNat]? = some a ∧ step s = .next (({ s with dev := d } : State).act a) := by
  obtain ⟨a, ha⟩ := hi.action hb
  obtain ⟨d, ht, hd⟩ := step_eq_txn s
  obtain ⟨h, hs, h0, -⟩ := blockStep_busy (s := { s with dev := d }) hb (by simp [hh])
  refine ⟨a, d, ht, ha, ?_⟩
  rw [hd, hs, h0 hh, actStep_at (by exact ha)]
  simp [hh]

end Sys2Proof.Machine
end

