-- ==== Sys2Proof/Tests/Slice0.lean ====
section
/-! SUPPORT. Small tests whose expected results are spec/95_test_vectors.md's or read off the rules by hand, and for every
statement with hypotheses a witness that meets them. -/

namespace Sys2Proof.Tests

-- Each theorem is checked before the next is read: a file of many small `decide` proofs would else start a thread for each.
set_option Elab.async false

open Sys2Proof Sys2Proof.Machine

/-! ### Well-formedness and decoding (V-E1, V-E2) -/

theorem test_wf_refuses_lut_11 : (Instr.lut 11#4).wf = false := by decide
theorem test_wf_takes_lut_10 : (Instr.lut 10#4).wf = true := by decide

theorem test_decode_start : decode (.word 0b00010000000000000000000000000000#32) = .ok .start := by decide
theorem test_decode_stop : decode (.word 0b00100000000000000000000000000000#32) = .ok .stop := by decide
theorem test_decode_sendb : decode (.word 0b00110000000000000000000010110010#32) = .ok (.sendb 0xB2#8) := by decide
theorem test_decode_setf : decode (.word 0b01000000000000000000001001110110#32) = .ok (.setf 2#2 0x76#8) := by decide
theorem test_decode_wrf : decode (.word 0b01010000000000000000000000000011#32) = .ok (.wrf 3#2) := by decide
theorem test_decode_brt : decode (.word 0b01100000000000000000000011111111#32) = .ok (.brt 255#8) := by decide
theorem test_decode_rend : decode (.word 0b01110000000000010000010011010010#32) = .ok (.rend 1234#16 1#1) := by decide
theorem test_decode_init : decode (.word 0b10000000000000000000000000000000#32) = .ok .init := by decide
theorem test_decode_lut : decode (.word 0b10010000000000000000000000001010#32) = .ok (.lut 10#4) := by decide
theorem test_decode_wDataAuto : decode (.wire 0b01000000#8) = .ok .wDataAuto := by decide
theorem test_decode_wDataFixed : decode (.wire 0b01000100#8) = .ok .wDataFixed := by decide
theorem test_decode_wAddr : decode (.wire 0b11000001#8) = .ok (.wAddr 1#2) := by decide
theorem test_decode_wCtrlOn : decode (.wire 0b10001110#8) = .ok (.wCtrlOn 6#3) := by decide

theorem test_illegal_opcodes :
    [0x00000000#32, 0xFFFFFFFF#32, 0xA0000000#32].map (fun w => decode (.word w)) =
      [.error .reservedOpcode, .error .reservedOpcode, .error .reservedOpcode] := by decide
theorem test_illegal_bits :
    [0x10000001#32, 0x20000100#32, 0x30000100#32, 0x40000400#32, 0x50000004#32, 0x60000100#32, 0x70020000#32,
      0x80000001#32, 0x90000010#32, 0x18000000#32].all (fun w => decide (decode (.word w) = .error .reservedBits)) =
      true := by decide
theorem test_illegal_lut_index :
    [0x9000000B#32, 0x9000000F#32].map (fun w => decode (.word w)) = [.error .lutIndex, .error .lutIndex] := by decide
theorem test_wire_other : decode (.wire 0x80#8) = .error .notWireCommand := by decide
theorem test_table_word : decodeTableWord 32 0x9000000C = none ∧ decodeTableWord 8 0x8D = some (.wCtrlOn 5#3) := by
  decide

/-! ### Small states -/

/-- An idle block after reset, its remote device answering as listed. -/
def idleWith (answers : List Bool) : State := { State.reset with answers := answers }

/-- Whether an outcome is a next state of which `p` holds. -/
def nextHolds (o : Host.Outcome State Fault Refusal) (p : State → Bool) : Bool :=
  match o with
  | .next t => p t
  | .fault _ => false
  | .refused _ => false

/-- `BRT 9` (0x60000009) accepted after reset and its first `n` actions performed. -/
def brtAfter (n : Nat) : State :=
  (State.reset.latch 0x60000009#32 (brtList 9#8)).actAll ((brtList 9#8).take n)

/-- The host has made no move yet. -/
theorem brtAfter_host (n : Nat) : (brtAfter n).host = [] := by
  rw [brtAfter, State.actAll_host]; rfl

/-- A state whose remote device, in auto-increment mode, has one closed transaction to act on. -/
def deviceWith (bytes : List Byte) : State :=
  { State.reset with
    dev := { Device.powerUp with mode := .autoInc, dreg := ⟨9#8, 9#8, 9#8, 9#8⟩, rx := ⟨none, [bytes]⟩ } }

/-! ### The commands -/

/-- V-B2. -/
theorem test_start_pins :
    nextHolds (runCommand .start State.reset) (fun t => decide (t.pins = ⟨false, false, .outOd⟩) && !t.busy) = true := by
  decide
/-- V-B3. -/
theorem test_stop_pins :
    nextHolds (runCommand .stop { State.reset with pins := ⟨false, false, .outOd⟩ })
      (fun t => decide (t.pins = ⟨true, true, .outOd⟩)) = true := by decide
/-- V-B1: the levels of the data pin, least significant bit first. -/
theorem test_sendb_levels :
    dioLevels (actionsSendb 0xB2#8) = [false, true, false, false, true, true, false, true] := by decide
/-- V-B1: the acknowledgment. V-B9: the reference device does not receive a byte outside any transaction. -/
theorem test_sendb_ack :
    nextHolds (runCommand (.sendb 0xB2#8) (idleWith [true]))
      (fun t => t.ack && decide (t.pins = ⟨false, true, .outOd⟩)) = true ∧
    nextHolds (runCommand (.sendb 0x55#8) { State.reset with responder := .device }) (fun t => !t.ack) = true := by
  decide +kernel
/-- V-D6. -/
theorem test_setf_writes_one :
    nextHolds (exec (.setf 3#2 0xFF#8) State.reset) (fun t => decide (t.f = ⟨0#8, 0#8, 0#8, 0xFF#8⟩) && !t.busy) =
      true := by decide
/-- V-D4. -/
theorem test_wrf_wire :
    tx Pins.idle (commandActions segDefault (.wrf 3#2) ⟨1#8, 2#8, 3#8, 4#8⟩) = [[0x40#8], [0xC3#8, 1#8, 2#8, 3#8, 4#8]] := by
  decide +kernel
/-- V-D7: the last acknowledgment wins. -/
theorem test_wrf_last_ack :
    nextHolds (runCommand (.wrf 0#2) (idleWith [true, true, true, true, true, false])) (fun t => !t.ack) = true := by
  decide +kernel
/-- V-D2: 8 and 16 are clamped, not truncated. -/
theorem test_brt_clamp : [0#8, 7#8, 8#8, 16#8, 255#8].map ctrlByte = [0x88#8, 0x8F#8, 0x8F#8, 0x8F#8, 0x8F#8] := by decide
/-- V-D1, with a mock device. -/
theorem test_brt_wire :
    tx Pins.idle (commandActions segDefault (.brt 0#8) Frame.zero) = [[0x88#8]] ∧
    nextHolds (runCommand (.brt 0#8) { State.reset with responder := .mock }) (fun t => t.ack) = true := by
  decide +kernel
/-- V-R2. -/
theorem test_rend_frames :
    [(0#16, 1#1), (1005#16, 1#1), (65535#16, 0#1)].map (fun p => renderFrame segDefault p.1 p.2) =
      [⟨0x00#8, 0x80#8, 0x00#8, 0x3F#8⟩, ⟨0x06#8, 0xBF#8, 0x3F#8, 0x6D#8⟩, ⟨0x6D#8, 0x6D#8, 0x4F#8, 0x6D#8⟩] := by
  decide
/-- V-R4. -/
theorem test_rend_leaves_f :
    nextHolds (runCommand (.rend 1234#16 0#1) { State.reset with f := ⟨0xAA#8, 0#8, 0#8, 0#8⟩ })
      (fun t => decide (t.f = ⟨0xAA#8, 0#8, 0#8, 0#8⟩)) = true := by decide +kernel
/-- V-I1. -/
theorem test_init_wire :
    tx Pins.idle (commandActions segDefault .init ⟨0xFF#8, 0#8, 0#8, 0#8⟩) = [[0x40#8], [0xC0#8, 0#8, 0#8, 0#8, 0#8], [0x8F#8]] := by
  decide +kernel
/-- R172: INIT from reset with a device that acknowledges every byte. -/
theorem test_init_ack :
    nextHolds (runCommand .init { State.reset with responder := .device })
      (fun t => t.ack && decide (t.pins = Pins.idle) && decide (t.f = Frame.zero)) = true := by decide +kernel
/-- V-R1, and R9: another table gives another code. -/
theorem test_lut_8 :
    nextHolds (exec (.lut 8#4) State.reset) (fun t => decide (t.res = 0x7F#8)) = true ∧
    nextHolds (exec (.lut 6#4) { State.reset with seg := segDefault.set 6 0x7C#8 }) (fun t => decide (t.res = 0x7C#8)) =
      true := by decide
/-- P4: index 12 is illegal and `RES` stays. -/
theorem test_step_illegal_lut :
    nextHolds (step { State.reset with res := 6#8, host := [.present 0x9000000C#32] })
      (fun t => t.ill && decide (t.res = 6#8)) = true := by decide
/-- R58. -/
theorem test_wDataAuto : nextHolds (exec .wDataAuto (deviceWith [0x40#8])) (fun t => decide (t.dev.mode = .autoInc)) = true := by
  decide
/-- GK3. -/
theorem test_wDataFixed :
    nextHolds (exec .wDataFixed (deviceWith [0x44#8])) (fun t => decide (t.dev.mode = .fixedAddr)) = true := by decide
/-- P6: one byte to position 1. -/
theorem test_wAddr_one :
    nextHolds (step (deviceWith [0xC1#8, 0xDB#8])) (fun t => decide (t.dev.dreg = ⟨9#8, 0xDB#8, 9#8, 9#8⟩)) = true := by decide
/-- R58: of a frame written from position 3 on, the first byte goes to `DREG[3]`. -/
theorem test_wAddr_overrun :
    nextHolds (exec (.wAddr 3#2) (deviceWith [0xC3#8, 1#8, 2#8, 3#8, 4#8])) (fun t => decide (t.dev.dreg.b3 = 1#8)) = true := by
  decide
/-- R58. -/
theorem test_wCtrlOn :
    nextHolds (exec (.wCtrlOn 7#3) (deviceWith [0x8F#8])) (fun t => decide (t.dev.ctrl = 0x8F#8)) = true := by decide
/-- V-B7 (b): START on a bus that is not idle. -/
theorem test_repeated_start :
    tx Pins.idle (startList ++ sendByte 0x81#8 ++ startList ++ stopList) = [[0x81#8], []] := by decide +kernel
/-- V-B9: a byte outside any transaction. -/
theorem test_byte_without_start : tx Pins.idle (sendByte 0x55#8) = [] := by decide +kernel
/-- The first step after reset runs the placed instruction. -/
theorem test_withFetchWord :
    nextHolds (step (State.reset.withFetchWord 32 0x90000001)) (fun t => decide (t.res = 0x06#8)) = true ∧
    nextHolds (step (State.reset.withFetchWord 8 0x8A)) (fun t => decide (t.dev.ctrl = 0x8A#8)) = true := by decide

/-! ### Witnesses of the statements' hypotheses -/

theorem witness_ResetStepRestoresBlock : ∃ s : State, s.host = .rst :: [.quiet] :=
  ⟨{ State.reset with host := [.rst, .quiet] }, rfl⟩

theorem witness_ResetLeavesRemoteDevice :
    (∃ s : State, s.host = .rst :: [] ∧ s.pins = ⟨true, true, .outOd⟩) ∧
    ∃ s : State, s.host = .rst :: [] ∧ s.pins ≠ ⟨true, true, .outOd⟩ :=
  ⟨⟨{ State.reset with host := [.rst] }, rfl, rfl⟩,
    { State.reset with host := [.rst], pins := ⟨false, false, .inPu⟩ }, rfl, by decide⟩

theorem witness_StepRunsPresentedCommand :
    ∃ s s1 : State, s.busy = false ∧ s.host = .present 0x9000000A#32 :: [] ∧
      decode (.word 0x9000000A#32) = .ok (.lut 10#4) ∧ deviceStep s = .next s1 :=
  ⟨{ State.reset with host := [.present 0x9000000A#32] }, _, rfl, rfl, by decide, rfl⟩

theorem witness_StepRunsWireCommand :
    ∃ s : State, s.dev.rx.closed = (0x8F#8 :: []) :: [] ∧ decode (.wire 0x8F#8) = .ok (.wCtrlOn 7#3) ∧
      s.busy = false ∧ s.host = [] :=
  ⟨deviceWith [0x8F#8], rfl, by decide, rfl, rfl⟩

theorem witness_ActStepPerformsNextAction :
    ∃ s : State, s.busy = true ∧ (∀ rest, s.host ≠ .rst :: rest) ∧
      (actions s.seg s.cur)[s.upc.toNat]? = some .smp :=
  ⟨brtAfter 61, by decide +kernel, by simp [brtAfter_host], by decide +kernel⟩

/-- The state in the middle of `BRT 9` meets the invariants. -/
theorem brtAfter_57_meets_invariants :
    (brtAfter 57).SeqInv ∧ (brtAfter 57).PinsInv ∧ (brtAfter 57).TraceInv ∧ (brtAfter 57).busy = true := by
  unfold State.SeqInv State.PinsInv State.TraceInv
  decide +kernel

theorem witness_BusyBlockHoldsWord :
    ∃ s : State, s.SeqInv ∧ s.busy = true ∧ s.host = .present 0x10000000#32 :: [] := by
  obtain ⟨hi, -, -, hb⟩ := brtAfter_57_meets_invariants
  generalize brtAfter 57 = s at hi hb
  exact ⟨{ s with host := [.present 0x10000000#32] }, hi, hb, rfl⟩

theorem witness_IllegalWordSetsIllOnly :
    (∃ s : State, s.busy = false ∧ s.host = .present 0x9000000B#32 :: [] ∧ legal 0x9000000B#32 = false) ∧
    ∃ s : State, s.busy = false ∧ s.host = .present 0x9000000A#32 :: [] ∧ legal 0x9000000A#32 = true :=
  ⟨⟨{ State.reset with host := [.present 0x9000000B#32] }, rfl, rfl, by decide⟩,
    { State.reset with host := [.present 0x9000000A#32] }, rfl, rfl, by decide⟩

theorem witness_DecodeOfEncode : (Instr.lut 10#4).wf = true := by decide

theorem witness_EncodeOfDecode : decode (.word 0x7001FFFF#32) = .ok (.rend 65535#16 1#1) := by decide

theorem witness_RowsAreDisjoint :
    (∃ r ∈ hostRows, r.selects 0x9000000B#32 = true) ∧ ∃ r ∈ wireRows, 0xC3#8 &&& r.1 = r.2 := by decide

theorem witness_ReservedOpcodesIllegal :
    (0x0FFFFFFF#32).extractLsb' 28 4 = 0#4 ∧ 10#4 ≤ (0xA0000000#32).extractLsb' 28 4 := by decide

theorem witness_ReservedBitsIllegal :
    legal 0x9000000A#32 = true ∧ 4 < 28 ∧
      ∀ r ∈ hostRows, r.selects 0x9000000A#32 = true → r.mask.getLsbD 4 = true := by decide

theorem witness_AssemblerGivesLegalWords : assemble (.rend 65535 1) = some 0x7001FFFF#32 := by decide

theorem witness_StartAndStopLists : (⟨false, true, .outOd⟩ : Pins).dioMode = .outOd := rfl

theorem witness_EveryListRespectsHazards : Pins.idle.dioMode = .outOd := rfl

theorem witness_WireTransactionsOfCommands :
    legal 0x00000000#32 = false ∧ (deviceWith []).dev.rx.closed = [] :: [] := by decide

/-- The hypothesis of every statement about a command presented to an idle block. -/
theorem witness_idle_block : (idleWith [true]).busy = false := by decide

theorem witness_LutResult : State.reset.busy = false ∧ (10#4).toNat < 11 ∧ 11#4 ≤ 11#4 := by decide

/-- The default table meets what the spec's source states of `SEG`, and shows every digit. -/
theorem witness_segDefault : sourced State.reset.seg = true ∧ digitsShown State.reset.seg = true := by decide

/-- A variant of the table that R150 names (6, 7 and 9 otherwise) does so too. -/
theorem witness_segVariant :
    sourced (((segDefault.set 6 0x7C#8).set 7 0x27#8).set 9 0x67#8) = true ∧
    digitsShown (((segDefault.set 6 0x7C#8).set 7 0x27#8).set 9 0x67#8) = true := by decide

theorem witness_BusyBlockAcceptsNothing :
    Instr.isHost (.setf 3#2 1#8) = true ∧ (brtAfter 57).busy = true :=
  ⟨rfl, brtAfter_57_meets_invariants.2.2.2⟩

theorem witness_AcceptStepFrame :
    Instr.isHost (.setf 3#2 1#8) = true ∧ ∃ t, exec (.setf 3#2 1#8) State.reset = .next t := ⟨rfl, _, rfl⟩

/-- Both branches of the first premise: a well-formed command, and a LUT index the table lacks in a state that agrees with
its command. -/
theorem witness_WholeCommandFrame :
    Instr.isHost .start = true ∧ Instr.wf .start = true ∧ State.reset.busy = false ∧ sendsByte .start = false ∧
      (∃ u, runCommand .start State.reset = .next u) ∧
    Instr.isHost (.lut 11#4) = true ∧ State.reset.SeqInv ∧ ∃ u, runCommand (.lut 11#4) State.reset = .next u :=
  ⟨rfl, rfl, rfl, rfl, ⟨_, rfl⟩, rfl, ⟨rfl, by decide, rfl⟩, _, rfl⟩

theorem witness_WireCommandFrame :
    (Instr.isHost (.wCtrlOn 7#3) = false ∧ (deviceWith [0x8F#8]).dev.dataBytes = [] ∧
      ∃ t, exec (.wCtrlOn 7#3) (deviceWith [0x8F#8]) = .next t) ∧
    (Instr.isHost .wDataAuto = false ∧ (deviceWith [0x40#8]).dev.dataBytes = [] ∧
      ∃ t, exec .wDataAuto (deviceWith [0x40#8]) = .next t) ∧
    (Instr.isHost .wDataFixed = false ∧ (deviceWith [0x44#8]).dev.dataBytes = [] ∧
      ∃ t, exec .wDataFixed (deviceWith [0x44#8]) = .next t) ∧
    Instr.isHost (.wAddr 3#2) = false ∧ ∃ t, exec (.wAddr 3#2) (deviceWith [0xC3#8, 1#8, 2#8]) = .next t :=
  ⟨⟨rfl, rfl, _, rfl⟩, ⟨rfl, rfl, _, rfl⟩, ⟨rfl, rfl, _, rfl⟩, rfl, _, rfl⟩

/-- The hypothesis of the statements about a command byte that stands alone. -/
theorem witness_alone : (deviceWith [0x40#8]).dev.dataBytes = [] := rfl

/-- Both clauses of `WAddrResult` at the edge: the last register written, the one before it left. -/
theorem witness_WAddrResult :
    (deviceWith [0xC3#8, 7#8]).dev.mode = .autoInc ∧ 3#2 ≤ 3#2 ∧
    (deviceWith [0xC3#8, 7#8]).dev.dataBytes[(3#2).toNat - (3#2).toNat]? = some 7#8 ∧ 2#2 < 3#2 ∧
    (3#2).toNat + (deviceWith [0xC3#8, 7#8]).dev.dataBytes.length ≤ 4 := by decide

theorem witness_ColonIsBitSevenOfSecondByte : (renderFrame segDefault 99#16 0#1).b1 = 0x00#8 := by decide

theorem witness_RenderLaws :
    (renderFrame segDefault 9#16 0#1).b2 = 0x00#8 ∧ (renderFrame segDefault 99#16 0#1).b1 = 0x00#8 ∧
    ((renderFrame segDefault 1000#16 0#1).b0 ≠ 0x00#8 ∧ (1000#16).toNat / 100 % 10 = 0) ∧
    ((renderFrame segDefault 100#16 0#1).b1 ≠ 0x00#8 ∧ (100#16).toNat / 10 % 10 = 0) := by decide

theorem witness_PortsShowState : ∀ rest, State.reset.host ≠ .rst :: rest := by simp [State.reset]

theorem witness_StepKeepsInvariants :
    State.reset.SeqInv ∧ State.reset.PinsInv ∧ State.reset.AckInv ∧ State.reset.TraceInv ∧
      ∃ t, step State.reset = .next t := by
  refine ⟨?_, rfl, rfl, rfl, _, rfl⟩
  unfold State.SeqInv
  decide

theorem witness_IdleBlockIsInOutputMode : State.reset.SeqInv ∧ State.reset.busy = false :=
  ⟨witness_StepKeepsInvariants.1, rfl⟩

theorem witness_ModeSwitchesOnlyWithClockLow :
    (brtAfter 57).SeqInv ∧ (brtAfter 57).PinsInv ∧ (brtAfter 57).TraceInv ∧ (brtAfter 57).busy = true ∧
      (actions (brtAfter 57).seg (brtAfter 57).cur)[(brtAfter 57).upc.toNat]? = some (.mode .inPu) :=
  ⟨brtAfter_57_meets_invariants.1, brtAfter_57_meets_invariants.2.1, brtAfter_57_meets_invariants.2.2.1,
    brtAfter_57_meets_invariants.2.2.2, by decide +kernel⟩

theorem witness_BlockNeverHangs :
    (∃ s : State, s.SeqInv ∧ s.busy = true) ∧
    ∃ s : State, s.SeqInv ∧ s.busy = false ∧ s.host = .present 0x00000000#32 :: [] :=
  ⟨⟨brtAfter 57, brtAfter_57_meets_invariants.1, brtAfter_57_meets_invariants.2.2.2⟩,
    { State.reset with host := [.present 0x00000000#32] }, witness_StepKeepsInvariants.1, rfl, rfl⟩

theorem witness_StepsAgreeWithBigStep : ∃ s : State, s.SeqInv ∧ s.host = [] ∧ s.upc < s.upcEnd :=
  ⟨brtAfter 57, brtAfter_57_meets_invariants.1, brtAfter_host 57, by decide +kernel⟩

theorem witness_AcknowledgmentNeverSteers :
    ∃ s s' t : State, s.SameDrive s' ∧ s.ack ≠ s'.ack ∧ step s = .next t :=
  ⟨State.reset, { State.reset with ack := true }, _,
    ⟨rfl, rfl, rfl, rfl, rfl, rfl, rfl, rfl, rfl, rfl⟩, by decide, rfl⟩

theorem witness_RemoteDeviceNeverSteersBlock :
    ∃ s s' t : State, s.SameBlock s' ∧ s.dev ≠ s'.dev ∧ step s = .next t :=
  ⟨State.reset, deviceWith [0xC3#8, 7#8], _, rfl, by decide, rfl⟩

/-- Where the reference device answers, two devices that differ in a register only. -/
theorem witness_RemoteDeviceNeverSteersBlock_device :
    ∃ s s' t : State, s.responder = .device ∧ s.SameBlock s' ∧ s.dev ≠ s'.dev ∧ s.dev.rx.txn = s'.dev.rx.txn ∧
      (∀ rest, s.host ≠ .rst :: rest) ∧ step s = .next t :=
  ⟨{ State.reset with responder := .device }, { deviceWith [0xC3#8, 7#8] with responder := .device }, _, rfl, rfl,
    by decide, rfl, by simp [State.reset], rfl⟩

/-- A transaction open for the reference device, and none, for both sides of its answer. -/
theorem witness_SendbResult_device :
    (∃ s : State, s.busy = false ∧ s.responder = .device ∧ s.pins.dioMode = .outOd ∧ s.dev.rx.txn = some ⟨[], []⟩) ∧
    ∃ s : State, s.busy = false ∧ s.responder = .device ∧ s.pins.dioMode = .outOd ∧ s.dev.rx.txn = none :=
  ⟨⟨{ State.reset with responder := .device, dev := { Device.powerUp with rx := ⟨some ⟨[], []⟩, []⟩ } }, rfl, rfl, rfl, rfl⟩,
    { State.reset with responder := .device }, rfl, rfl, rfl, rfl⟩

theorem witness_InstancesAreIndependent : ∃ sys', systemStep [State.reset, State.reset] 1 = .next sys' := ⟨_, rfl⟩

theorem witness_RenderedNumberReachesDisplay :
    ∃ s : State, s.SeqInv ∧ s.busy = false ∧ s.pins = Pins.idle ∧ s.dev.rx = Rx.empty ∧
      s.host = [.present (0x70000000#32 ||| ((1#1).setWidth 32 <<< 16) ||| (1234#16).setWidth 32)] :=
  ⟨{ State.reset with host := [.present (0x70000000#32 ||| ((1#1).setWidth 32 <<< 16) ||| (1234#16).setWidth 32)] },
    witness_StepKeepsInvariants.1, rfl, rfl, rfl, rfl⟩

theorem witness_InitReachesDisplay :
    ∃ s : State, s.SeqInv ∧ s.busy = false ∧ s.pins = Pins.idle ∧ s.dev.rx = Rx.empty ∧
      s.host = [.present 0x80000000#32] :=
  ⟨{ State.reset with host := [.present 0x80000000#32] }, witness_StepKeepsInvariants.1, rfl, rfl, rfl, rfl⟩

end Sys2Proof.Tests
end

section
/-! PROOF. The block runs alike beside any remote device: each part of a step with the device replaced is that part, and the
device replaced after it. The one part that reads the device is a sample the device itself answers, and that reads the
transaction being received only (R58, log entry 19). -/

namespace Sys2Proof.Machine

/-- Replacing the remote device, as a continuation for `andThen`. -/
def putDevice (d : Device) (s : State) : Host.Outcome State Fault Refusal := .next { s with dev := d }

/-- Two outcomes of the block with the device replaced agree on the block. -/
theorem andThen_putDevice {o : Host.Outcome State Fault Refusal} {d : Device} {t : State}
    (h : andThen o (putDevice d) = .next t) (e : Device) :
    ∃ t', andThen o (putDevice e) = .next t' ∧ t.SameBlock t' ∧ t.dev = d ∧ t'.dev = e := by
  obtain ⟨u, rfl, hu⟩ := andThen_next h
  injection hu with hu
  subst hu
  exact ⟨_, rfl, rfl, rfl, rfl⟩

section Replaced
variable (s : State) (d : Device)

/-- The host's moves are taken alike beside any device (R7, R34). -/
theorem State.hostMoved_dev : ({ s with dev := d } : State).hostMoved = { s.hostMoved with dev := d } := by
  simp only [State.hostMoved, State.busy_dev]
  split
  · rfl
  · rfl
  · by_cases hb : s.busy = true <;> simp [hb]
  · rfl

/-- An illegal word sets `ILL` alike beside any device (R77). -/
theorem acceptIllegal_dev : acceptIllegal { s with dev := d } = { acceptIllegal s with dev := d } := by
  cases hb : s.busy <;> simp [acceptIllegal, hb]

/-- A word is accepted alike beside any device, if its immediate effect neither reads nor writes it (R34). -/
theorem accept_dev (f : State → State) (hf : f { s with dev := d } = { f s with dev := d }) (w : Word)
    (l : List PinAction) : accept { s with dev := d } f w l = andThen (accept s f w l) (putDevice d) := by
  cases hb : s.busy
  · rw [accept_idle hb, accept_idle (by exact hb), hf]
    rfl
  · rw [accept_busy hb, accept_busy (by exact hb)]
    rfl

/-- Every host command is accepted alike beside any device (R7, R34). -/
theorem exec_host_dev {i : Instr} (h : i.isHost = true) :
    exec i { s with dev := d } = andThen (exec i s) (putDevice d) := by
  cases i with
  | start | stop | sendb _ | wrf _ | brt _ | rend _ _ | init => exact accept_dev s d id rfl _ _
  | setf idx imm8 => exact accept_dev s d (fun t => { t with f := t.f.set idx imm8 }) rfl _ _
  | lut lidx =>
    simp only [exec, execLut]
    cases segRead s.seg lidx.toNat with
    | some code => exact accept_dev s d _ rfl _ _
    | none => exact congrArg _ (acceptIllegal_dev s d)
  | wDataAuto | wDataFixed | wAddr _ | wCtrlOn _ => cases h

/-- Every presented word, legal or not, is accepted alike beside any device (R7, R34, R77). -/
theorem acceptWord_dev (w : Word) : acceptWord w { s with dev := d } = andThen (acceptWord w s) (putDevice d) := by
  unfold acceptWord
  split
  · next i hi => exact exec_host_dev s d (decodeWord_isHost hi)
  · exact congrArg _ (acceptIllegal_dev s d)

end Replaced

/-- The transaction open after an event depends on the one open before it only (R56). -/
theorem Rx.feed_txn_congr {r q : Rx} (h : r.txn = q.txn) (e : WireEvent) : (r.feed e).txn = (q.feed e).txn := by
  obtain ⟨t, c⟩ := r
  obtain ⟨_, c'⟩ := q
  obtain rfl : t = _ := h
  cases e with
  | start => rfl
  | stop | bit b => cases t <;> rfl
  | ackSlot =>
    cases t with
    | none => rfl
    | some t => by_cases hl : t.bits.length = 8 <;> simp [Rx.feed, hl]

/-- The transaction open after some events depends on the one open before them only (R56). -/
theorem Rx.feedAll_txn_congr {r q : Rx} (h : r.txn = q.txn) (es : List WireEvent) :
    (r.feedAll es).txn = (q.feedAll es).txn := by
  induction es generalizing r q with
  | nil => exact h
  | cons e es ih => exact ih (Rx.feed_txn_congr h e)

/-- A sample reads the remote device's open transaction only, and that only where the device answers (R27, R58). -/
theorem State.lineRead_dev (s : State) {d e : Device} (h : s.responder = .device → d.rx.txn = e.rx.txn) :
    ({ s with dev := d } : State).lineRead = ({ s with dev := e } : State).lineRead := by
  have hlow : ({ s with dev := d } : State).remoteLow = ({ s with dev := e } : State).remoteLow := by
    unfold State.remoteLow
    cases hr : s.responder with
    | free | mock => rfl
    | device => simp only [State.deviceLow, Rx.byteTaken, h hr]
  simp only [State.lineRead, hlow]

/-- An action that reads the same is performed alike beside either device (R33). -/
theorem State.act_sameBlock (s : State) {d e : Device} (h : s.responder = .device → d.rx.txn = e.rx.txn) (a : PinAction) :
    (({ s with dev := d } : State).act a).SameBlock (({ s with dev := e } : State).act a) := by
  have hl := s.lineRead_dev h
  cases a with
  | clk _ | dio _ | mode _ | dly => rfl
  | smp => simp only [State.SameBlock, State.act, State.perform, State.entry, hl]

/-- An act step beside either device answers alike, and the devices hear the same (R33, R56). -/
theorem actStep_sameBlock (s : State) {d e : Device} (h : s.responder = .device → d.rx.txn = e.rx.txn) {t : State}
    (ht : actStep { s with dev := d } = .next t) :
    ∃ t', actStep { s with dev := e } = .next t' ∧ t.SameBlock t' ∧
      (d.rx.txn = e.rx.txn → t.dev.rx.txn = t'.dev.rx.txn) := by
  rcases actStep_cases { s with dev := d } with ⟨a, ha, hact⟩ | ⟨-, hstop⟩
  · rw [hact] at ht
    injection ht with ht
    subst ht
    exact ⟨_, actStep_at (by exact ha), s.act_sameBlock h a, fun hx => Rx.feedAll_txn_congr hx _⟩
  · rw [hstop] at ht
    cases ht

/-- The block resets only where `rst` is asserted (R200). -/
theorem blockWork_reset {s : State} (h : blockWork s = .reset) : ∃ rest, s.host = .rst :: rest := by
  unfold blockWork at h
  split at h
  · next rest hh => exact ⟨rest, hh⟩
  all_goals split at h <;> cases h

/-- The block's part of a step beside either device answers alike (R7, R27, R58). -/
theorem blockStep_sameBlock (s : State) {d e : Device} (h : s.responder = .device → d.rx.txn = e.rx.txn) {t : State}
    (ht : blockStep { s with dev := d } = .next t) :
    ∃ t', blockStep { s with dev := e } = .next t' ∧ t.SameBlock t' ∧
      ((∀ rest, s.host ≠ .rst :: rest) → d.rx.txn = e.rx.txn → t.dev.rx.txn = t'.dev.rx.txn) := by
  have hwork : ∀ d, blockWork { s with dev := d } = blockWork s := fun _ => rfl
  simp only [blockStep, hwork, State.hostMoved_dev] at ht ⊢
  cases hw : blockWork s with simp only [hw] at ht ⊢
  | reset =>
    obtain ⟨rest, hrst⟩ := blockWork_reset hw
    injection ht with ht
    subst ht
    exact ⟨_, rfl, rfl, fun hn => absurd hrst (hn rest)⟩
  | act =>
    obtain ⟨hm, hh⟩ := s.hostMoved_host
    rw [hh] at ht ⊢
    obtain ⟨t', ht', hs, htxn⟩ := actStep_sameBlock { s with host := hm } h ht
    exact ⟨t', ht', hs, fun _ => htxn⟩
  | accept w =>
    rw [acceptWord_dev] at ht ⊢
    obtain ⟨t', ht', hs, rfl, rfl⟩ := andThen_putDevice ht e
    exact ⟨t', ht', hs, fun _ hx => hx⟩
  | wait =>
    injection ht with ht
    subst ht
    exact ⟨_, rfl, rfl, fun _ hx => hx⟩

/-- Settles O57: the remote device's part of either step changes its own registers and leaves the transaction being
received; the block's part that follows answers alike beside either device. -/
theorem remoteDeviceNeverSteersBlock : Obligations.RemoteDeviceNeverSteersBlock := by
  intro s s' t hsame hdev ht
  obtain ⟨d, hd, hstep⟩ := step_eq_txn s
  obtain ⟨e, he, hstep'⟩ := step_eq_txn s'
  have hs' : ({ s' with dev := e } : State) = { s with dev := e } := by rw [← hsame]
  rw [hs'] at hstep'
  rw [hstep] at ht
  rw [hstep', ← hd, ← he]
  exact blockStep_sameBlock s (fun hr => by rw [hd, he, hdev hr]) ht

end Sys2Proof.Machine
end

section
/-! PROOF. The word that a host command's accept step latches decodes to that command (R70 to R72, R34), so that
`Actions(CUR)` after an accept step is the accepted command's list. -/

namespace Sys2Proof

section Rows
variable {w : Word} {k : BitVec 4}

/-- A word is none of another opcode (R70). -/
theorem ne_of_opcField (ho : opcField w = k) {p : Word} (hp : k ≠ opcField p) : w ≠ p :=
  fun e => hp (ho ▸ congrArg opcField e)

/-- A word selects no row of another opcode (R72). -/
theorem not_row_of_opcField (ho : opcField w = k) {m p : Word} (hm : m.extractLsb' 28 4 = 15#4)
    (hp : k ≠ opcField p) : w &&& m ≠ p := mask_ne_of_opcField hm (ho ▸ hp)

/-- The row of SENDB (R72). -/
theorem decodeWord_sendb (h : w &&& 0xFFFFFF00#32 = 0x30000000#32) : decodeWord w = .ok (.sendb (imm8Field w)) := by
  have ho : opcField w = 3#4 := opcField_of_mask h (by decide)
  simp (disch := decide) only [decodeWord, ne_of_opcField ho, not_row_of_opcField ho, h, if_true, if_false]

/-- The row of SETF (R72). -/
theorem decodeWord_setf (h : w &&& 0xFFFFFC00#32 = 0x40000000#32) :
    decodeWord w = .ok (.setf (idxField w) (imm8Field w)) := by
  have ho : opcField w = 4#4 := opcField_of_mask h (by decide)
  simp (disch := decide) only [decodeWord, ne_of_opcField ho, not_row_of_opcField ho, h, if_true, if_false]

/-- The row of WRF (R72). -/
theorem decodeWord_wrf (h : w &&& 0xFFFFFFFC#32 = 0x50000000#32) : decodeWord w = .ok (.wrf (offField w)) := by
  have ho : opcField w = 5#4 := opcField_of_mask h (by decide)
  simp (disch := decide) only [decodeWord, ne_of_opcField ho, not_row_of_opcField ho, h, if_true, if_false]

/-- The row of BRT (R72). -/
theorem decodeWord_brt (h : w &&& 0xFFFFFF00#32 = 0x60000000#32) : decodeWord w = .ok (.brt (imm8Field w)) := by
  have ho : opcField w = 6#4 := opcField_of_mask h (by decide)
  simp (disch := decide) only [decodeWord, ne_of_opcField ho, not_row_of_opcField ho, h, BitVec.reduceEq, if_true,
    if_false]

/-- The row of REND (R72). -/
theorem decodeWord_rend (h : w &&& 0xFFFE0000#32 = 0x70000000#32) :
    decodeWord w = .ok (.rend (valueField w) (colonField w)) := by
  have ho : opcField w = 7#4 := opcField_of_mask h (by decide)
  simp (disch := decide) only [decodeWord, ne_of_opcField ho, not_row_of_opcField ho, h, if_true, if_false]

/-- The row of LUT, with the index in the table (R72, R76). -/
theorem decodeWord_lut (h : w &&& 0xFFFFFFF0#32 = 0x90000000#32) (hl : lidxField w ≤ 10#4) :
    decodeWord w = .ok (.lut (lidxField w)) := by
  have ho : opcField w = 9#4 := opcField_of_mask h (by decide)
  simp (disch := decide) only [decodeWord, ne_of_opcField ho, not_row_of_opcField ho, h, hl, and_self, if_true, if_false]

end Rows

/-- SETF's index and byte are read back (R71). -/
theorem fields_setf (idx : BitVec 2) (imm8 : Byte) :
    idxField (encodeWord (.setf idx imm8)) = idx ∧ imm8Field (encodeWord (.setf idx imm8)) = imm8 :=
  ⟨(extract_high_or _ _ _ _ (by decide)).trans (by revert idx; decide),
    extract_low_or _ _ (by decide) (by revert idx; decide)⟩

/-- REND's value and colon are read back (R71). -/
theorem fields_rend (value : BitVec 16) (colon : BitVec 1) :
    valueField (encodeWord (.rend value colon)) = value ∧ colonField (encodeWord (.rend value colon)) = colon :=
  ⟨extract_low_or _ _ (by decide) (by revert colon; decide),
    (extract_high_or _ _ _ _ (by decide)).trans (by revert colon; decide)⟩

/-- Decoding reads back the host command that the encoder placed in a word (R70 to R72, R82). -/
theorem decode_encodeWord {i : Instr} (h : i.isHost = true) (hw : i.wf = true) :
    decode (.word (encodeWord i)) = .ok i := by
  rw [decode]
  cases i with
  | start | stop | init => decide
  | sendb imm8 =>
    have himm : imm8Field (encodeWord (.sendb imm8)) = imm8 := extract_low_or _ _ (by decide) (by decide)
    rw [decodeWord_sendb (w := encodeWord (.sendb imm8)) (Laws.Encoding.sendb imm8), himm]
  | setf idx imm8 =>
    obtain ⟨hidx, himm⟩ := fields_setf idx imm8
    rw [decodeWord_setf (w := encodeWord (.setf idx imm8)) (Laws.Encoding.setf idx imm8), hidx, himm]
  | wrf off =>
    have hoff : offField (encodeWord (.wrf off)) = off := extract_low_or _ _ (by decide) (by decide)
    rw [decodeWord_wrf (w := encodeWord (.wrf off)) (Laws.Encoding.wrf off), hoff]
  | brt imm8 =>
    have himm : imm8Field (encodeWord (.brt imm8)) = imm8 := extract_low_or _ _ (by decide) (by decide)
    rw [decodeWord_brt (w := encodeWord (.brt imm8)) (Laws.Encoding.brt imm8), himm]
  | rend value colon =>
    obtain ⟨hvalue, hcolon⟩ := fields_rend value colon
    rw [decodeWord_rend (w := encodeWord (.rend value colon)) (Laws.Encoding.rend value colon), hvalue, hcolon]
  | lut lidx =>
    have hlidx : lidxField (encodeWord (.lut lidx)) = lidx := extract_low_or _ _ (by decide) (by decide)
    have hle : lidxField (encodeWord (.lut lidx)) ≤ 10#4 := by rw [hlidx]; exact of_decide_eq_true hw
    rw [decodeWord_lut (w := encodeWord (.lut lidx)) (Laws.Encoding.lut lidx) hle, hlidx]
  | wDataAuto | wDataFixed | wAddr _ | wCtrlOn _ => cases h

end Sys2Proof
end

section
/-! PROOF. The invariants of the block: each holds after reset and every step keeps it, case by case of `step_cases`
(R22, R23, R36, R40). -/

namespace Sys2Proof.Machine

/-- The zeros that reset leaves in `CUR` are an illegal word, which has no action (log entries 1, 13). -/
@[simp] theorem actions_zeroWord (t : SegTable) (f : Frame) : actions t ⟨0#32, f⟩ = [] := by
  have hd : decode (.word 0#32) = .error .reservedOpcode := by decide
  simp only [actions, hd]

/-- `Actions(CUR)` after an accept step is the accepted command's list (R34, R78). -/
theorem actions_encodeWord {i : Instr} (h : i.isHost = true) (hw : i.wf = true) (t : SegTable) (f : Frame) :
    actions t ⟨encodeWord i, f⟩ = commandActions t i f := by
  simp only [actions, decode_encodeWord h hw]

/-- The length of a command's list fits `UPC_END` (R22). -/
theorem upcEnd_commandActions (t : SegTable) (i : Instr) (f : Frame) :
    (BitVec.ofNat 9 (commandActions t i f).length).toNat = (commandActions t i f).length := by
  have hle := commandActions_length_le t i f
  simp only [BitVec.toNat_ofNat]
  omega

/-- Reset of the reset state changes nothing. -/
theorem applyReset_reset : State.reset.applyReset = State.reset := rfl

section Reset
variable (s : State)

/-- After reset the sequencer agrees with its command: `CUR` holds zeros (R38; log entries 1, 13). -/
theorem State.seqInv_applyReset : s.applyReset.SeqInv :=
  ⟨congrArg List.length (actions_zeroWord s.seg Frame.zero).symm, Nat.le_refl _, rfl⟩

/-- After reset the pins are idle and the trace is empty (R38, R201). -/
theorem State.pinsInv_applyReset : s.applyReset.PinsInv := rfl

/-- After reset `ACK` is 0 and the trace holds no sample (R38, R201). -/
theorem State.ackInv_applyReset : s.applyReset.AckInv := rfl

/-- After reset nothing is performed (R38, R201). -/
theorem State.traceInv_applyReset : s.applyReset.TraceInv := rfl

end Reset

/-- Settles O47: the reset state is a state after reset. -/
theorem resetMeetsInvariants : Obligations.ResetMeetsInvariants := by
  unfold Obligations.ResetMeetsInvariants
  rw [← applyReset_reset]
  exact ⟨State.seqInv_applyReset _, State.pinsInv_applyReset _, State.ackInv_applyReset _,
    State.traceInv_applyReset _⟩

/-- In output mode the accept step of a command makes the sequencer agree with it (R34). -/
theorem State.seqInv_latch {s : State} (hm : s.pins.dioMode = .outOd) {i : Instr} (h : i.isHost = true)
    (hw : i.wf = true) : (s.latch (encodeWord i) (commandActions s.seg i s.f)).SeqInv := by
  refine ⟨?_, Nat.zero_le _, hm⟩
  rw [State.latch_seg, State.latch_cur, actions_encodeWord h hw]
  exact upcEnd_commandActions _ _ _

/-- An idle block that agrees with its command has performed the whole of its list (R22, R23). -/
theorem State.SeqInv.take_idle {s : State} (hi : s.SeqInv) (hb : s.busy = false) :
    (actions s.seg s.cur).take s.upc.toNat = actions s.seg s.cur := by
  obtain ⟨hlen, -, -⟩ := hi
  exact List.take_of_length_le (hlen ▸ s.idle_iff.mp hb)

/-- At a command boundary the data pin is in output mode (R40). -/
theorem State.SeqInv.dioMode_idle {s : State} (hi : s.SeqInv) (hb : s.busy = false) : s.pins.dioMode = .outOd := by
  obtain ⟨-, -, hmode⟩ := id hi
  rw [hmode, hi.take_idle hb, modeAfter_actions]

/-- Settles O52: an idle block has performed its whole list, which ends in output mode. -/
theorem idleBlockIsInOutputMode : Obligations.IdleBlockIsInOutputMode :=
  ⟨fun _ hi hb => hi.dioMode_idle hb, fun m => by simp [startList, stopList]⟩

/-- Settles O48: an act step advances the sequencer by its action, an accept step begins a list in output mode, which an
idle block is in, and reset leaves a command without actions. -/
theorem stepKeepsSequencer : Obligations.StepKeepsSequencer := by
  intro s t hi ht
  obtain ⟨d, hm, rfl | ⟨hb, a, ha, rfl⟩ | ⟨hb, i, f, r, hhost, hw, rfl⟩ | ⟨-, b, rfl⟩⟩ := step_cases ht
  · exact State.seqInv_applyReset _
  · exact ((hi.dev d).host hm).act hb ha
  · exact State.seqInv_latch (s := { s with dev := d, host := hm, f := f, res := r }) (hi.dioMode_idle hb) hhost hw
  · exact hi

/-- An action's effect on the pins is appended to the replayed trace (R36, R101). -/
theorem State.PinsInv.act {s : State} (h : s.PinsInv) (a : PinAction) : (s.act a).PinsInv := by
  unfold State.PinsInv at h ⊢
  rw [State.performed_act, Pins.applyAll_append, ← h, State.act_pins]
  rfl

/-- Settles O49: reset empties the trace and idles the pins, an act step adds its action to both, and no other step touches
either. -/
theorem stepKeepsPinsReplay : Obligations.StepKeepsPinsReplay := by
  intro s t hi ht
  obtain ⟨d, hm, rfl | ⟨-, a, -, rfl⟩ | ⟨-, i, f, r, -, -, rfl⟩ | ⟨-, b, rfl⟩⟩ := step_cases ht
  · exact State.pinsInv_applyReset _
  · exact State.PinsInv.act (s := { s with dev := d, host := hm }) hi a
  · exact hi
  · exact hi

/-- A sample sets `ACK` to what it read, and its reading is the newest of the trace; another action leaves both (R23, R36,
R105). -/
theorem State.AckInv.act {s : State} (h : s.AckInv) (a : PinAction) : (s.act a).AckInv := by
  cases a with
  | smp => rfl
  | clk _ | dio _ | mode _ | dly => exact h

/-- Settles O50: reset clears `ACK` and the trace, a sample sets both alike, and no other step touches either. -/
theorem stepKeepsAckLastSample : Obligations.StepKeepsAckLastSample := by
  intro s t hi ht
  obtain ⟨d, hm, rfl | ⟨-, a, -, rfl⟩ | ⟨-, i, f, r, -, -, rfl⟩ | ⟨-, b, rfl⟩⟩ := step_cases ht
  · exact State.ackInv_applyReset _
  · exact State.AckInv.act (s := { s with dev := d, host := hm }) hi a
  · exact hi
  · exact hi

end Sys2Proof.Machine
end

section
/-! PROOF. The steps of a command in progress end in the state of its big step (R33, R35): the remote device acts between
the actions, and no action sees it (R7). -/

namespace Sys2Proof.Machine

/-- A list of actions is performed alike beside two devices that are receiving the same transaction (R33, R58). -/
theorem State.actAll_sameBlock (l : List PinAction) {s t : State} (h : s.SameBlock t)
    (hx : s.dev.rx.txn = t.dev.rx.txn) : (s.actAll l).SameBlock (t.actAll l) := by
  induction l generalizing s t with
  | nil => exact h
  | cons a l ih =>
    have ht : t = { s with dev := t.dev } := h.symm
    rw [State.actAll_cons, State.actAll_cons]
    refine ih ?_ ?_
    · rw [ht]
      exact s.act_sameBlock (fun _ => hx) a
    · rw [ht]
      exact Rx.feedAll_txn_congr hx _

/-- Agreeing on the block is transitive. -/
theorem State.SameBlock.trans {s t u : State} (h : s.SameBlock t) (k : t.SameBlock u) : s.SameBlock u := by
  unfold State.SameBlock at h k ⊢
  rw [← k, ← h]

/-- An idle block has no action to come (R23). -/
theorem State.SeqInv.remaining_idle {s : State} (hi : s.SeqInv) (hb : s.busy = false) : s.remaining = [] := by
  obtain ⟨hlen, -, -⟩ := hi
  exact List.drop_of_length_le (hlen ▸ s.idle_iff.mp hb)

/-- The actions to come of a busy block are the one at `UPC` and those to come after it (R33). -/
theorem State.SeqInv.remaining_busy {s : State} (hi : s.SeqInv) (hb : s.busy = true) {a : PinAction}
    (ha : (actions s.seg s.cur)[s.upc.toNat]? = some a) : s.remaining = a :: (s.act a).remaining := by
  obtain ⟨hlt, rfl⟩ := List.getElem?_eq_some_iff.mp ha
  simp only [State.remaining, State.act_seg, State.act_cur, State.act_upc, hi.upc_succ hb]
  exact List.drop_eq_getElem_cons hlt

/-- The big step of a busy block is its next action and the big step from there (R35). -/
theorem State.SeqInv.complete_busy {s : State} (hi : s.SeqInv) (hb : s.busy = true) {a : PinAction}
    (ha : (actions s.seg s.cur)[s.upc.toNat]? = some a) : s.complete = (s.act a).complete := by
  rw [State.complete, hi.remaining_busy hb ha]
  rfl

/-- The steps of a command in progress agree with its big step, by induction over the number of actions to come (R35). -/
theorem run_sameBlock_complete {n : Nat} {s : State} (hi : s.SeqInv) (hh : s.host = [])
    (hn : s.upcEnd.toNat - s.upc.toNat = n) :
    ∃ t, Host.Core.run Sys2Proof.core n s = .next t ∧ s.complete.SameBlock t ∧ t.busy = false := by
  induction n generalizing s with
  | zero =>
    have hb : s.busy = false := s.idle_iff.mpr (Nat.sub_eq_zero_iff_le.mp hn)
    refine ⟨s, run_zero s, ?_, hb⟩
    rw [State.complete, hi.remaining_idle hb]
    rfl
  | succ n ih =>
    have hb : s.busy = true := s.busy_iff.mpr (by omega)
    obtain ⟨a, d, hx, ha, hs⟩ := step_busy hi hb hh
    have hleft : s.upcEnd.toNat - (s.upc + 1).toNat = n := by
      rw [hi.upc_succ hb]
      omega
    obtain ⟨t, ht, hc, hidle⟩ := ih ((hi.dev d).act hb ha) (by rw [State.act_host]; exact hh)
      (by rw [State.act_upcEnd]; exact hleft)
    refine ⟨t, (run_succ hs n).trans ht, State.SameBlock.trans ?_ hc, hidle⟩
    rw [← (hi.dev d).complete_busy hb ha]
    exact State.actAll_sameBlock _ rfl hx.symm

/-- Settles O55, by induction over the number of actions to come. -/
theorem stepsAgreeWithBigStep : Obligations.StepsAgreeWithBigStep :=
  fun _ hi hh => run_sameBlock_complete hi hh rfl

end Sys2Proof.Machine
end

section
/-! PROOF. No acknowledgment steers the block (R31, R112, R181): each part of a step, taken in two states that agree on the
block's drive, answers alike, in states that agree on it again. -/

namespace Sys2Proof.Machine

/-- Wherever the first outcome is a next state, so is the second, and the two agree on the block's drive. -/
def FollowsDrive (o o' : Host.Outcome State Fault Refusal) : Prop :=
  ∀ t, o = .next t → ∃ t', o' = .next t' ∧ t.SameDrive t'

/-- Two next states that agree on the drive. -/
theorem followsDrive_next {t t' : State} (h : t.SameDrive t') : FollowsDrive (.next t) (.next t') := by
  intro u hu
  injection hu with hu
  exact ⟨t', rfl, hu ▸ h⟩

section SameDrive
variable {s s' : State}

/-- The drive is busy alike (R23). -/
theorem State.SameDrive.busy (h : s.SameDrive s') : s.busy = s'.busy := by
  obtain ⟨-, -, hupc, hend, -⟩ := h
  simp only [State.busy, hupc, hend]

/-- The step kinds are enabled alike (R33, R34, R200). -/
theorem State.SameDrive.blockWork (h : s.SameDrive s') : blockWork s = blockWork s' := by
  have hb := h.busy
  obtain ⟨-, -, -, -, -, -, -, -, hhost, -⟩ := h
  simp only [Machine.blockWork, hhost, hb]

/-- The host's move is used up alike (R34). -/
theorem State.SameDrive.hostMoved (h : s.SameDrive s') : s.hostMoved.SameDrive s'.hostMoved := by
  have hb := h.busy
  obtain ⟨hf, hcur, hupc, hend, hpins, hill, hres, hperf, hhost, hseg⟩ := h
  have he : s.hostMoved.host = s'.hostMoved.host := by
    unfold State.hostMoved
    rw [← hhost, ← hb]
    split
    · rfl
    · rfl
    · split <;> rfl
    · exact hhost
  obtain ⟨m, hm⟩ := s.hostMoved_host
  obtain ⟨m', hm'⟩ := s'.hostMoved_host
  rw [hm, hm'] at he ⊢
  exact ⟨hf, hcur, hupc, hend, hpins, hill, hres, hperf, he, hseg⟩

/-- Reset restores the drive alike (R200). -/
theorem State.SameDrive.applyReset (h : s.SameDrive s') : s.applyReset.SameDrive s'.applyReset := by
  obtain ⟨-, -, -, -, -, -, -, -, hhost, hseg⟩ := h
  exact ⟨rfl, rfl, rfl, rfl, rfl, rfl, rfl, rfl, hhost, hseg⟩

/-- An action is performed alike, whatever a sample reads (R33, R112). -/
theorem State.SameDrive.act (h : s.SameDrive s') (a : PinAction) : (s.act a).SameDrive (s'.act a) := by
  obtain ⟨hf, hcur, hupc, hend, hpins, hill, hres, hperf, hhost, hseg⟩ := h
  simp only [State.SameDrive, State.act_f, State.act_cur, State.act_upc, State.act_upcEnd, State.act_pins,
    State.act_ill, State.act_res, State.performed_act, State.act_host, State.act_seg, hf, hcur, hupc, hend, hpins, hill,
    hres, hperf, hhost, hseg, and_self]

/-- An act step answers alike (R33). -/
theorem State.SameDrive.actStep (h : s.SameDrive s') : FollowsDrive (actStep s) (actStep s') := by
  intro t ht
  rcases actStep_cases s with ⟨a, ha, he⟩ | ⟨-, he⟩
  · have hact := h.act a
    obtain ⟨-, hcur, hupc, -, -, -, -, -, -, hseg⟩ := h
    rw [hseg, hcur, hupc] at ha
    rw [he] at ht
    rw [actStep_at ha]
    exact followsDrive_next hact t ht
  · rw [he] at ht
    cases ht

/-- A word with its list is latched alike (R34). -/
theorem State.SameDrive.latch (h : s.SameDrive s') (w : Word) (l : List PinAction) :
    (s.latch w l).SameDrive (s'.latch w l) := by
  obtain ⟨hf, -, -, -, hpins, -, hres, hperf, hhost, hseg⟩ := h
  exact ⟨hf, congrArg (Cur.mk w) hf, rfl, rfl, hpins, rfl, hres, hperf, hhost, hseg⟩

/-- A legal word is accepted alike, if its immediate effect keeps the drives in agreement (R34). -/
theorem State.SameDrive.accept (h : s.SameDrive s') {f f' : State → State} (hf : (f s).SameDrive (f' s')) (w : Word)
    (l : List PinAction) : FollowsDrive (accept s f w l) (accept s' f' w l) := by
  have hb := h.busy
  cases hs : s.busy
  · rw [accept_idle hs, accept_idle (hb ▸ hs)]
    exact followsDrive_next (hf.latch w l)
  · rw [accept_busy hs, accept_busy (hb ▸ hs)]
    exact followsDrive_next h

/-- An illegal word sets `ILL` alike (R77). -/
theorem State.SameDrive.acceptIllegal (h : s.SameDrive s') : (acceptIllegal s).SameDrive (acceptIllegal s') := by
  unfold Machine.acceptIllegal
  rw [← h.busy]
  split
  · exact h
  · obtain ⟨hf, hcur, hupc, hend, hpins, -, hrest⟩ := h
    exact ⟨hf, hcur, hupc, hend, hpins, rfl, hrest⟩

/-- Every host command is accepted alike (R34). -/
theorem State.SameDrive.exec_host (h : s.SameDrive s') {i : Instr} (hi : i.isHost = true) :
    FollowsDrive (exec i s) (exec i s') := by
  obtain ⟨hf, hcur, hupc, hend, hpins, hill, hres, hperf, hhost, hseg⟩ := id h
  cases i with
  | start | stop | sendb _ | brt _ => exact h.accept h _ _
  | setf idx v =>
    exact h.accept (f := fun t => { t with f := t.f.set idx v }) (f' := fun t => { t with f := t.f.set idx v })
      ⟨congrArg (Frame.set · idx v) hf, hcur, hupc, hend, hpins, hill, hres, hperf, hhost, hseg⟩ _ _
  | wrf off =>
    simp only [exec, execWrf, hf]
    exact h.accept h _ _
  | rend v c =>
    simp only [exec, execRend, hseg]
    exact h.accept h _ _
  | init =>
    simp only [exec, execInit, hseg]
    exact h.accept h _ _
  | lut l =>
    simp only [exec, execLut, hseg]
    cases segRead s'.seg l.toNat with
    | some code => exact h.accept ⟨hf, hcur, hupc, hend, hpins, hill, rfl, hperf, hhost, hseg⟩ _ _
    | none => exact followsDrive_next h.acceptIllegal
  | wDataAuto | wDataFixed | wAddr _ | wCtrlOn _ => cases hi

/-- Every presented word is accepted alike (R34, R77). -/
theorem State.SameDrive.acceptWord (h : s.SameDrive s') (w : Word) :
    FollowsDrive (acceptWord w s) (acceptWord w s') := by
  unfold Machine.acceptWord
  split
  · next i hi => exact h.exec_host (decodeWord_isHost hi)
  · exact followsDrive_next h.acceptIllegal

/-- The block's part of a step answers alike (R31). -/
theorem State.SameDrive.blockStep (h : s.SameDrive s') : FollowsDrive (blockStep s) (blockStep s') := by
  unfold Machine.blockStep
  rw [← h.blockWork]
  cases Machine.blockWork s with
  | reset => exact followsDrive_next h.hostMoved.applyReset
  | act => exact h.hostMoved.actStep
  | accept w => exact h.hostMoved.acceptWord w
  | wait => exact followsDrive_next h.hostMoved

end SameDrive

/-- Settles O56: the remote device's part of either step is no part of the drive, and the block's part that follows answers
alike. -/
theorem acknowledgmentNeverSteers : Obligations.AcknowledgmentNeverSteers := by
  intro s s' t h ht
  obtain ⟨d, hd⟩ := step_eq s
  obtain ⟨e, he⟩ := step_eq s'
  rw [hd] at ht
  rw [he]
  exact State.SameDrive.blockStep (s := { s with dev := d }) (s' := { s' with dev := e }) h t ht

end Sys2Proof.Machine
end

section
/-! PROOF. One step of the block: the act step, the accept step of a presented word, the state after reset, the ports
(R31 to R38). -/

namespace Sys2Proof.Machine

/-- A step of a busy block that is not reset performs the action at `UPC`, whatever the remote device does beside it; a
presented word stays presented (R33, R34). -/
theorem step_busy_act {s : State} {a : PinAction} (hb : s.busy = true) (hr : ∀ rest, s.host ≠ .rst :: rest)
    (ha : (actions s.seg s.cur)[s.upc.toNat]? = some a) :
    ∃ d hm, d.rx.txn = s.dev.rx.txn ∧ step s = .next (({ s with dev := d, host := hm } : State).act a) ∧
      ∀ w rest, s.host = .present w :: rest → hm = s.host := by
  obtain ⟨d, hx, hd⟩ := step_eq_txn s
  obtain ⟨hm, hs, -, hheld⟩ := blockStep_busy (s := { s with dev := d }) hb hr
  exact ⟨d, hm, hx, by rw [hd, hs, actStep_at (by exact ha)], hheld⟩

/-- What an action leaves in `ACK` (R105). -/
theorem State.act_ack (s : State) (a : PinAction) :
    (s.act a).ack = if a = .smp then !s.pins.sdaLine s.remoteLow else s.ack := by
  cases a <;> rfl

/-- The trace grows by the action's entry (R36). -/
theorem State.act_trace (s : State) (a : PinAction) : (s.act a).trace = s.trace ++ [s.entry a] := by
  simp only [State.trace, State.act_hist, List.reverse_cons]

/-- The trace entry of an action depends on the state through the level a sample reads (R36). -/
theorem State.entry_congr {s t : State} (h : s.lineRead = t.lineRead) (a : PinAction) : s.entry a = t.entry a := by
  cases a with
  | smp => simp only [State.entry, h]
  | clk _ | dio _ | mode _ | dly => rfl

/-- The oracle answers the next sample from its script and after it freely (R27). -/
theorem State.remoteLow_free {s : State} (h : s.responder = .free) :
    s.remoteLow = s.answers.headD (Config.remoteLow s.inst s.draws) := by
  rw [State.remoteLow, h]
  unfold State.oracleLow
  cases s.answers <;> rfl

/-- The mock acknowledges every sample (R58). -/
theorem State.remoteLow_mock {s : State} (h : s.responder = .mock) : s.remoteLow = true := by
  rw [State.remoteLow, h]

/-- A whole byte has just been taken iff a transaction with bytes is open and no bit is pending (R56). -/
theorem Rx.byteTaken_iff (r : Rx) : r.byteTaken = true ↔ ∃ bytes, bytes ≠ [] ∧ r.txn = some ⟨[], bytes⟩ := by
  obtain ⟨_ | ⟨bits, bytes⟩, c⟩ := r
  · simp [Rx.byteTaken]
  · simp only [Rx.byteTaken, Bool.and_eq_true, List.isEmpty_iff, Bool.not_eq_true', List.isEmpty_eq_false_iff,
      Option.some.injEq, OpenTxn.mk.injEq]
    exact ⟨fun ⟨hbits, hbytes⟩ => ⟨bytes, hbytes, hbits, rfl⟩, fun ⟨_, hbytes, hbits, he⟩ => ⟨hbits, he ▸ hbytes⟩⟩

/-- The reference remote device pulls the line low in the acknowledgment slot of a byte it has taken (R58). -/
theorem State.remoteLow_device_iff {s : State} (h : s.responder = .device) :
    s.remoteLow = true ↔ s.pins.dioMode = .inPu ∧ s.pins.clkOut = true ∧
      ∃ bytes, bytes ≠ [] ∧ s.dev.rx.txn = some ⟨[], bytes⟩ := by
  rw [s.remoteLow_device h, State.deviceLow, Bool.and_eq_true, Bool.and_eq_true, decide_eq_true_iff, Rx.byteTaken_iff,
    and_assoc]

/-- Settles O6: a busy block's step is its act step, which the device's part before it does not touch. -/
theorem actStepPerformsNextAction : Obligations.ActStepPerformsNextAction := by
  intro s a hb hr ha
  obtain ⟨d, hm, hx, hs, -⟩ := step_busy_act hb hr ha
  have hline : ({ s with dev := d, host := hm } : State).lineRead = s.lineRead := s.lineRead_dev (e := s.dev) fun _ => hx
  have hack : (({ s with dev := d, host := hm } : State).act a).ack = (s.act a).ack := by
    cases a with
    | smp => exact congrArg ackOf hline
    | clk _ | dio _ | mode _ | dly => rfl
  refine ⟨_, hs, State.act_pins _ a, ?_, rfl, State.act_cur _ a, State.act_upcEnd _ a, State.act_f _ a, State.act_ill _ a,
    State.act_res _ a, hack.trans (s.act_ack a), State.remoteLow_free, State.remoteLow_mock, State.remoteLow_device_iff⟩
  rw [State.act_trace, State.entry_congr hline]
  rfl

/-- Settles O7: the step of a busy block that agrees with its command is its act step, which leaves a presented word. -/
theorem busyBlockHoldsWord : Obligations.BusyBlockHoldsWord := by
  intro s w rest hi hb hh
  obtain ⟨a, ha⟩ := hi.action hb
  obtain ⟨d, hm, -, hs, hheld⟩ := step_busy_act hb (by simp [hh]) ha
  exact ⟨_, hs, (State.act_host _ a).trans (hheld w rest hh), State.act_cur _ a, State.act_f _ a, State.act_res _ a,
    State.act_ill _ a, rfl, State.act_upcEnd _ a⟩

/-- The block acts only while it is busy (R33). -/
theorem busy_of_blockWork_act {s : State} (h : blockWork s = .act) : s.busy = true := by
  cases hb : s.busy with
  | true => rfl
  | false =>
    simp only [blockWork, hb] at h
    split at h <;> cases h

/-- Settles O1: the block is idle after reset, whatever `CUR` holds, and an idle block does not act. -/
theorem resetStateAsSpecified : Obligations.ResetStateAsSpecified := by
  refine ⟨rfl, rfl, rfl, rfl, rfl, rfl, rfl, rfl, rfl, fun c h hact => ?_⟩
  have hb := busy_of_blockWork_act hact
  cases hb

/-- Settles O4: the device's part leaves the block idle and the word presented, so that the block's part accepts it. -/
theorem stepRunsPresentedCommand : Obligations.StepRunsPresentedCommand := by
  intro s s1 w rest i hb hh hw hs
  obtain ⟨d, hd⟩ := deviceStep_dev s
  have he : s1 = { s with dev := d } := by
    rw [hs] at hd
    injection hd
  have hb1 : s1.busy = false := he ▸ hb
  have hh1 : s1.host = .present w :: rest := he ▸ hh
  rw [step, hs, andThen_of_next, blockStep_accept hb1 hh1]
  simp only [acceptWord, hw]

/-- An illegal word leaves a busy block (R34, R77). -/
theorem acceptIllegal_busy {s : State} (hb : s.busy = true) : acceptIllegal s = s := if_pos hb

/-- Settles O33: each command, and the illegal word that a LUT index past the table is, is held by a busy block. -/
theorem busyBlockAcceptsNothing : Obligations.BusyBlockAcceptsNothing := by
  intro i s hi hb
  cases i with
  | start | stop | sendb _ | wrf _ | brt _ | rend _ _ | init => exact accept_busy hb _ _ _
  | setf idx v => exact accept_busy hb (fun t => { t with f := t.f.set idx v }) _ _
  | lut l =>
    simp only [exec, execLut]
    cases segRead s.seg l.toNat with
    | some code => exact accept_busy hb _ _ _
    | none => exact congrArg _ (acceptIllegal_busy hb)
  | wDataAuto | wDataFixed | wAddr _ | wCtrlOn _ => cases hi

/-- Without `rst` in the host's next move reset is not asserted (R200). -/
theorem State.rstNow_false {s : State} (h : ∀ rest, s.host ≠ .rst :: rest) : s.rstNow = false := by
  unfold State.rstNow
  split
  · next rest hh => exact absurd hh (h rest)
  · rfl
  · rfl
  · rfl

/-- Settles O46: each port shows its field; `cmd_ready` is `not BUSY` while reset is not asserted; the pad's rule is the
line's. -/
theorem portsShowState : Obligations.PortsShowState := by
  intro s remoteLow
  refine ⟨?_, fun hr => ?_, rfl, rfl, rfl, rfl, rfl, rfl, ?_, rfl⟩
  · simp only [State.ports, State.busy, BitVec.lt_def]
  · simp only [State.ports, s.rstNow_false hr, Bool.not_false, Bool.and_true]
  · show (decide (s.pins.dioMode = .outOd) && !s.pins.dioOut) = true ↔ _
    simp only [Bool.and_eq_true, decide_eq_true_eq, Bool.not_eq_true']

end Sys2Proof.Machine
end

section
/-! PROOF. What the accept step and the whole of a host command leave unchanged (R21, R23, R28, R34, R39). -/

namespace Sys2Proof.Machine

/-- The four register numbers (R21). -/
theorem regIdx_cases (i : BitVec 2) : i = 0#2 ∨ i = 1#2 ∨ i = 2#2 ∨ i = 3#2 := by
  revert i
  decide

/-- Writing one frame register leaves the others (R11, R131). -/
theorem Frame.get_set_ne (f : Frame) (v : Byte) {i j : BitVec 2} (h : j ≠ i) : (f.set i v).get j = f.get j := by
  rcases regIdx_cases i with rfl | rfl | rfl | rfl <;> rcases regIdx_cases j with rfl | rfl | rfl | rfl <;>
    simp_all [Frame.set, Frame.get]

/-- Accepting a word whose immediate effect is on `F` and `RES` changes those, the sequencer and `ILL` at most (R34). -/
theorem accept_frame {s t : State} {g : State → State} {f : Frame} {r : Byte} (hg : g s = { s with f := f, res := r })
    {w : Word} {l : List PinAction} (h : accept s g w l = .next t) :
    t = { s with f := t.f, cur := t.cur, upc := t.upc, upcEnd := t.upcEnd, ill := t.ill, res := t.res } ∧
      (t.f = s.f ∨ t.f = f) ∧ (t.res = s.res ∨ t.res = r) := by
  rcases accept_cases s g w l with ⟨-, he⟩ | ⟨-, he⟩ <;> rw [he] at h <;> injection h with h <;> subst h
  · exact ⟨rfl, .inl rfl, .inl rfl⟩
  · rw [hg]
    exact ⟨rfl, .inr rfl, .inr rfl⟩

/-- An illegal word changes `ILL` at most (R77). -/
theorem acceptIllegal_eq (s : State) : acceptIllegal s = { s with ill := (acceptIllegal s).ill } := by
  unfold acceptIllegal
  split <;> rfl

/-- Everything that the accept step of a host command can change: the sequencer, `ILL`, `F` by SETF and `RES` by LUT
(R34, R131, R152). -/
theorem exec_host_frame {i : Instr} (hi : i.isHost = true) {s t : State} (h : exec i s = .next t) :
    t = { s with f := t.f, cur := t.cur, upc := t.upc, upcEnd := t.upcEnd, ill := t.ill, res := t.res } ∧
      (t.f = s.f ∨ ∃ idx v, i = .setf idx v ∧ t.f = s.f.set idx v) ∧ (t.res = s.res ∨ ∃ l, i = .lut l) := by
  cases i with
  | start | stop | sendb _ | wrf _ | brt _ | rend _ _ | init =>
    obtain ⟨he, hf, hr⟩ := accept_frame (g := id) (f := s.f) (r := s.res) rfl h
    exact ⟨he, .inl (or_self_iff.mp hf), .inl (or_self_iff.mp hr)⟩
  | setf idx v =>
    obtain ⟨he, hf, hr⟩ :=
      accept_frame (g := fun t => { t with f := t.f.set idx v }) (f := s.f.set idx v) (r := s.res) rfl h
    exact ⟨he, hf.imp_right fun hf => ⟨idx, v, rfl, hf⟩, .inl (or_self_iff.mp hr)⟩
  | lut l =>
    simp only [exec, execLut] at h
    split at h
    · obtain ⟨he, hf, -⟩ := accept_frame (f := s.f) rfl h
      exact ⟨he, .inl (or_self_iff.mp hf), .inr ⟨l, rfl⟩⟩
    · injection h with h
      rw [← h, acceptIllegal_eq]
      exact ⟨rfl, .inl rfl, .inl rfl⟩
  | wDataAuto | wDataFixed | wAddr _ | wCtrlOn _ => cases hi

/-- Settles O35: what the accept step can change leaves the rest. -/
theorem acceptStepFrame : Obligations.AcceptStepFrame := by
  intro i s t hi h
  obtain ⟨he, hf, hr⟩ := exec_host_frame hi h
  refine ⟨(congrArg State.pins he :), (congrArg State.ack he :), (congrArg State.hist he :), (congrArg State.host he :),
    (congrArg State.answers he :), (congrArg State.draws he :), (congrArg State.dev he :), fun hn => ?_, ?_, fun hn => ?_⟩
  · exact hf.resolve_right fun ⟨idx, v, hset, _⟩ => hn idx v hset
  · rintro idx v j rfl hj
    obtain hf | ⟨_, _, hset, hf⟩ := hf
    · rw [hf]
    · injection hset with hidx hv
      rw [hf, ← hidx, Frame.get_set_ne _ _ hj]
  · exact hr.resolve_right fun ⟨l, hl⟩ => hn l hl

/-- After an accept step all actions of the accepted command are to come (R34). -/
theorem remaining_latch (s : State) {i : Instr} (hi : i.isHost = true) (hw : i.wf = true) (l : List PinAction) :
    (s.latch (encodeWord i) l).remaining = commandActions s.seg i s.f := by
  rw [← actions_encodeWord hi hw]
  rfl

/-- An index past the table has no code (R51). -/
theorem segRead_none (t : SegTable) {idx : Nat} (h : 11 ≤ idx) : segRead t idx = none :=
  Vector.getElem?_eq_none_iff.mpr h

/-- LUT is ill-formed where its index is past the table (R76). -/
theorem le_of_lut_not_wf {l : BitVec 4} (h : (Instr.lut l).wf ≠ true) : 11 ≤ l.toNat := by
  revert l
  decide

/-- What is to come after the accept step of an idle block: the command's actions, which for the illegal word of a LUT
index past the table are none, as are those of the command it leaves in `CUR` (R34, R77). -/
theorem exec_remaining {i : Instr} (hi : i.isHost = true) {s t : State} (hw : i.wf = true ∨ s.SeqInv)
    (hb : s.busy = false) (h : exec i s = .next t) : ∃ f, t.remaining = commandActions s.seg i f := by
  by_cases hwf : i.wf = true
  · obtain ⟨f, r, he⟩ := exec_host hi hwf hb
    rw [he] at h
    injection h with h
    exact ⟨f, h ▸ remaining_latch { s with f := f, res := r } hi hwf _⟩
  · have hinv : s.SeqInv := hw.resolve_left hwf
    cases i with
    | lut l =>
      simp only [exec, execLut, segRead_none s.seg (le_of_lut_not_wf hwf)] at h
      injection h with h
      refine ⟨s.f, ?_⟩
      rw [← h, acceptIllegal_eq]
      exact hinv.remaining_idle hb
    | _ => exact absurd rfl hwf

/-- A command that sends no byte takes no sample (R23, R111). -/
theorem smp_not_mem_commandActions {i : Instr} (h : sendsByte i = false) (t : SegTable) (f : Frame) :
    PinAction.smp ∉ commandActions t i f := by
  cases i with
  | start | stop => simp [commandActions, actionsStart, actionsStop, startList, stopList]
  | setf _ _ | lut _ | wDataAuto | wDataFixed | wAddr _ | wCtrlOn _ => exact List.not_mem_nil
  | sendb _ | wrf _ | brt _ | rend _ _ | init => cases h

/-- Settles O36: the accept step has the frame of O35; the actions after it touch neither the host's moves nor `F`, `RES` or
the device's registers, and without a sample they leave `ACK` and the answers. -/
theorem wholeCommandFrame : Obligations.WholeCommandFrame := by
  intro i s u hi hw hb h
  obtain ⟨t, ht, hu⟩ := andThen_next h
  injection hu with hu
  obtain ⟨-, hack, -, hhost, hanswers, hdraws, hdev, hf, hset, hres⟩ := acceptStepFrame i s t hi ht
  obtain ⟨f, hrem⟩ := exec_remaining hi hw hb ht
  subst hu
  simp only [State.complete, State.actAll_host, State.actAll_f, State.actAll_res, State.actAll_devDraws,
    Device.SameRegs, State.actAll_mode, State.actAll_dreg, State.actAll_ctrl, hdev, and_self, true_and]
  refine ⟨hhost, hf, hset, hres, fun hsend => ?_⟩
  obtain ⟨k1, k2, k3⟩ := t.actAll_noSample t.remaining (hrem ▸ smp_not_mem_commandActions hsend s.seg f)
  exact ⟨k1.trans hack, k2.trans hanswers, k3.trans hdraws⟩

end Sys2Proof.Machine
end

section
/-! PROOF. The trace and the command in progress (R33, R61): the newest entries of the trace are the actions performed so
far, in list order. -/

namespace Sys2Proof.Machine

/-- An accept step begins a list of which nothing is performed yet (R34). -/
theorem State.traceInv_latch (s : State) (w : Word) (l : List PinAction) : (s.latch w l).TraceInv := rfl

/-- An act step adds the action at `UPC` to the trace as its newest entry (R33, R36). -/
theorem State.TraceInv.act {s : State} (h : s.TraceInv) (hi : s.SeqInv) (hb : s.busy = true) {a : PinAction}
    (ha : (actions s.seg s.cur)[s.upc.toNat]? = some a) : (s.act a).TraceInv := by
  have hnew : (s.act a).hist.take (s.upc.toNat + 1) = s.entry a :: s.hist.take s.upc.toNat := rfl
  have hlist : (actions s.seg s.cur).take (s.upc.toNat + 1) = (actions s.seg s.cur).take s.upc.toNat ++ [a] := by
    rw [List.take_add_one, ha, Option.toList_some]
  unfold State.TraceInv at h ⊢
  rw [State.act_upc, hi.upc_succ hb, State.act_seg, State.act_cur, hnew, hlist, ← h, List.reverse_cons, List.map_append,
    List.map_singleton, State.entry_act]

/-- Settles O51: reset and an accept step leave nothing performed, an act step adds its action to the trace and to what is
performed of the list, and no other step touches either. -/
theorem stepKeepsTraceOrder : Obligations.StepKeepsTraceOrder := by
  intro s t hi h ht
  obtain ⟨d, hm, rfl | ⟨hb, a, ha, rfl⟩ | ⟨-, i, f, r, -, -, rfl⟩ | ⟨-, b, rfl⟩⟩ := step_cases ht
  · exact State.traceInv_applyReset _
  · exact State.TraceInv.act (s := { s with dev := d, host := hm }) h ((hi.dev d).host hm) hb ha
  · exact State.traceInv_latch _ _ _
  · exact h

end Sys2Proof.Machine
end

section
/-! PROOF. The wire transactions of the commands (R56, R66). Every command that sends whole transactions is a list of them,
each from START to STOP; the reader of R56 reads that list back. -/

namespace Sys2Proof.Machine

/-- One wire transaction of these bytes: START, the bytes, STOP (R66). -/
def transaction (vs : List Byte) : List PinAction := startList ++ vs.flatMap sendByte ++ stopList

/-- Several wire transactions, one after the other. -/
def transactions (txns : List (List Byte)) : List PinAction := txns.flatMap transaction

theorem transactions_append (txns txns' : List (List Byte)) :
    transactions (txns ++ txns') = transactions txns ++ transactions txns' := List.flatMap_append

/-- `Wrf` is two transactions (R134). -/
theorem wrfList_eq_transactions (off : BitVec 2) (f : Frame) :
    wrfList off f = transactions [[cmdDataAuto], [addrByte off, f.b0, f.b1, f.b2, f.b3]] := by
  simp only [wrfList, transactions, transaction, List.flatMap_cons, List.flatMap_nil, List.append_nil, List.append_assoc]

/-- `Brt` is one transaction (R137). -/
theorem brtList_eq_transactions (l : Byte) : brtList l = transactions [[ctrlByte l]] := by
  simp only [brtList, transactions, transaction, List.flatMap_cons, List.flatMap_nil, List.append_nil]

/-- The actions of INIT are three transactions (R170). -/
theorem actionsInit_eq_transactions (t : SegTable) :
    actionsInit t = transactions
      [[cmdDataAuto], [addrByte 0#2, segCode t blankIdx, segCode t blankIdx, segCode t blankIdx, segCode t blankIdx],
        [ctrlByte brtMax]] := by
  rw [actionsInit, wrfList_eq_transactions, brtList_eq_transactions, ← transactions_append]
  rfl

/-- STOP closes the open transaction and drops the stray bit before it (R56, R109). -/
theorem feedAll_stop (bs : List Byte) (c : List (List Byte)) :
    Rx.feedAll ⟨some ⟨[], bs⟩, c⟩ [.bit false, .stop] = ⟨none, c ++ [bs]⟩ := rfl

/-- With a transaction open, the reader takes each byte and then closes the transaction; the pins are left idle (R56). -/
theorem feedAll_bytes_stop (vs bs : List Byte) (c : List (List Byte)) (d : Bool) :
    Rx.feedAll ⟨some ⟨[], bs⟩, c⟩ (wireEvents ⟨false, d, .outOd⟩ (vs.flatMap sendByte ++ stopList)) =
        ⟨none, c ++ [bs ++ vs]⟩ ∧
      Pins.applyAll ⟨false, d, .outOd⟩ (vs.flatMap sendByte ++ stopList) = Pins.idle := by
  induction vs generalizing bs d with
  | nil =>
    rw [List.flatMap_nil, List.nil_append, wireEvents_stopList, feedAll_stop, List.append_nil]
    exact ⟨rfl, rfl⟩
  | cons v vs ih =>
    rw [List.flatMap_cons, List.append_assoc, wireEvents_append, Rx.feedAll_append, wireEvents_sendByte, feedAll_byte,
      Pins.applyAll_append, applyAll_sendByte]
    simpa using ih (bs ++ [v]) (v.getLsbD 7)

/-- From the bus-idle pins the reader reads a transaction as its bytes, and the pins are idle again (R41, R56, R66). -/
theorem feedAll_transaction (vs : List Byte) (c : List (List Byte)) :
    Rx.feedAll ⟨none, c⟩ (wireEvents Pins.idle (transaction vs)) = ⟨none, c ++ [vs]⟩ ∧
      Pins.idle.applyAll (transaction vs) = Pins.idle := by
  rw [transaction, List.append_assoc, wireEvents_append, Rx.feedAll_append, wireEvents_startList, Pins.applyAll_append,
    applyAll_startList]
  exact feedAll_bytes_stop vs [] c false

/-- From the bus-idle pins the reader reads transactions one after the other (R56, R66). -/
theorem feedAll_transactions (txns c : List (List Byte)) :
    Rx.feedAll ⟨none, c⟩ (wireEvents Pins.idle (transactions txns)) = ⟨none, c ++ txns⟩ := by
  induction txns generalizing c with
  | nil => rw [List.append_nil]; rfl
  | cons vs txns ih =>
    obtain ⟨hread, hpins⟩ := feedAll_transaction vs c
    rw [transactions, List.flatMap_cons, wireEvents_append, Rx.feedAll_append, hread, hpins]
    exact (ih _).trans (by rw [List.append_assoc]; rfl)

/-- `Tx` of transactions is what they are made of (R56, R66). -/
theorem tx_transactions (txns : List (List Byte)) : tx Pins.idle (transactions txns) = txns :=
  congrArg Rx.closed (feedAll_transactions txns [])

/-- `Tx` of one transaction. -/
theorem tx_transaction (vs : List Byte) : tx Pins.idle (transaction vs) = [vs] :=
  congrArg Rx.closed (feedAll_transaction vs []).1

/-- The address byte, with `+` as the rules write it (R66, R130). -/
theorem addrByte_eq_add (off : BitVec 2) : addrByte off = 0xC0#8 + off.setWidth 8 := by
  revert off
  decide

/-- The control byte, with `+` as the rules write it (R66, R137). -/
theorem ctrlByte_eq_add (l : Byte) : ctrlByte l = 0x88#8 + (if l ≤ 7#8 then l else 7#8) := by
  revert l
  decide

/-- An illegal word does not decode (R76). -/
theorem decodeWord_of_not_legal {w : Word} (h : legal w = false) : decodeWord w = .error (illegalReason w) := by
  simp only [legal, Bool.or_eq_false_iff, Bool.and_eq_false_imp, beq_eq_false_iff_ne, beq_iff_eq,
    decide_eq_false_iff_not] at h
  obtain ⟨⟨⟨⟨⟨⟨⟨⟨hstart, hstop⟩, hsendb⟩, hsetf⟩, hwrf⟩, hbrt⟩, hrend⟩, hinit⟩, hlut⟩ := h
  rw [decodeWord, if_neg hstart, if_neg hstop, if_neg hsendb, if_neg hsetf, if_neg hwrf, if_neg hbrt, if_neg hrend,
    if_neg hinit, if_neg fun ⟨hrow, hle⟩ => hlut hrow hle]

/-- An illegal word has no action (R77; log entry 13). -/
theorem actions_of_not_legal {w : Word} (h : legal w = false) (t : SegTable) (f : Frame) : actions t ⟨w, f⟩ = [] := by
  simp only [actions, decode, decodeWord_of_not_legal h]

/-- The blank code of a table the spec's source allows (R150). -/
theorem segCode_blank_of_sourced {t : SegTable} (h : sourced t = true) : segCode t blankIdx = 0x00#8 := by
  simp only [sourced, Bool.and_eq_true, beq_iff_eq] at h
  obtain ⟨⟨-, hblank⟩, -⟩ := h
  exact hblank

/-- The device drops an empty transaction (R58, R66). -/
theorem deviceStep_empty {s : State} {rest : List (List Byte)} (h : s.dev.rx.closed = [] :: rest) :
    deviceStep s = .next { s with dev := s.dev.pop } := by
  have hw : deviceWork s.dev = .empty := by simp only [deviceWork, h]
  simp only [deviceStep, hw, State.deviceEmpty]

/-- Settles O23: each command that sends whole transactions is a list of them, which `Tx` reads back. -/
theorem wireTransactionsOfCommands : Obligations.WireTransactionsOfCommands := by
  refine ⟨⟨rfl, rfl⟩, tx_transaction [], fun v => ?_, fun t off f => ?_, fun t l f => ?_, fun t v c f => ?_,
    fun t f => ⟨?_, segCode_blank_of_sourced⟩, fun t idx v l f => ⟨rfl, rfl⟩, fun t w f h => actions_of_not_legal h t f,
    fun s rest h => ⟨s.dev.pop, deviceStep_empty h, rfl, rfl, rfl⟩⟩
  · have hone : startList ++ sendByte v ++ stopList = transaction [v] := by simp [transaction]
    rw [hone, tx_transaction]
  · rw [← addrByte_eq_add]
    exact (congrArg _ (wrfList_eq_transactions off f)).trans (tx_transactions _)
  · rw [← ctrlByte_eq_add]
    exact (congrArg _ (brtList_eq_transactions l)).trans (tx_transactions _)
  · exact (congrArg _ (wrfList_eq_transactions 0#2 (renderFrame t v c))).trans (tx_transactions _)
  · exact (congrArg _ (actionsInit_eq_transactions t)).trans (tx_transactions _)

end Sys2Proof.Machine
end

section
/-! PROOF. The remote device's reaction to the four wire command bytes, in `exec` and through a step (R55, R58, R130, R133). -/

namespace Sys2Proof.Machine

/-- Using up the oldest closed transaction leaves the one being received and the younger closed ones (R56). -/
theorem Device.pop_rx (d : Device) : d.pop.rx = ⟨d.rx.txn, d.rx.closed.tail⟩ := rfl

/-- A command byte that stands alone has its effect (R58). -/
theorem State.deviceAlone_of_nil {s : State} (h : s.dev.dataBytes = []) (effect : Device → Device) :
    s.deviceAlone effect = { s with dev := effect s.dev.pop } := by
  rw [State.deviceAlone, if_pos h]

/-- Whether a command byte stands alone or not, it uses up its transaction, if its effect leaves the receiver (R58). -/
theorem State.deviceAlone_rx (s : State) {effect : Device → Device} (he : ∀ d, (effect d).rx = d.rx) :
    (s.deviceAlone effect).dev.rx = ⟨s.dev.rx.txn, s.dev.rx.closed.tail⟩ := by
  rw [← Device.pop_rx, State.deviceAlone]
  split
  · exact he _
  · rfl

/-- Where `exec` runs a command byte that must stand alone: nothing but the device changes, the transaction is used up, and
alone in it the byte has its effect (R58). -/
theorem deviceAlone_frame {s t : State} {effect : Device → Device}
    (h : (.next (s.deviceAlone effect) : Host.Outcome State Fault Refusal) = .next t) (he : ∀ d, (effect d).rx = d.rx) :
    t = { s with dev := t.dev } ∧ t.dev.rx = ⟨s.dev.rx.txn, s.dev.rx.closed.tail⟩ ∧
      (s.dev.dataBytes = [] → t.dev = effect s.dev.pop) := by
  injection h with h
  subst h
  exact ⟨rfl, s.deviceAlone_rx he, fun halone => congrArg State.dev (State.deviceAlone_of_nil halone effect)⟩

/-- `W_ADDR` uses up its transaction and changes the digit registers, in any address mode (R58; log entries 6, 18). -/
theorem exec_wAddr_dreg (off : BitVec 2) (s : State) :
    ∃ f n, exec (.wAddr off) s = .next { s with dev := { s.dev.pop with dreg := f, draws := n } } := by
  simp only [exec, execWAddr]
  split
  · exact ⟨_, _, rfl⟩
  · exact ⟨_, _, rfl⟩

/-- `W_ADDR` in auto-increment mode (R58). -/
theorem exec_wAddr_auto (off : BitVec 2) {s : State} (h : s.dev.mode = .autoInc) :
    exec (.wAddr off) s = .next { s with dev := s.dev.pop.writeAuto s.inst off.toNat s.dev.dataBytes } := by
  simp only [exec, execWAddr, if_pos h]

/-- Settles O37: three of the bytes have an effect only where they stand alone, on the mode or on the control byte; the
fourth writes the digit registers. -/
theorem wireCommandFrame : Obligations.WireCommandFrame := by
  intro i s t hi h
  cases i with
  | wDataAuto | wDataFixed =>
    obtain ⟨ht, hrx, halone⟩ := deviceAlone_frame h fun _ => rfl
    exact ⟨ht, hrx, fun _ hn => (congrArg Device.dreg (halone hn) :), fun _ _ hn => (congrArg Device.ctrl (halone hn) :),
      nofun, nofun⟩
  | wCtrlOn lvl =>
    obtain ⟨ht, hrx, halone⟩ := deviceAlone_frame h fun _ => rfl
    exact ⟨ht, hrx, fun _ hn => (congrArg Device.dreg (halone hn) :), fun hctrl => absurd rfl (hctrl lvl),
      fun _ _ hn => (congrArg Device.mode (halone hn) :), nofun⟩
  | wAddr off =>
    obtain ⟨f, n, he⟩ := exec_wAddr_dreg off s
    rw [he] at h
    injection h with h
    subst h
    exact ⟨rfl, rfl, fun haddr => absurd rfl (haddr off), fun _ haddr => absurd rfl (haddr off), nofun,
      fun _ _ => ⟨rfl, rfl⟩⟩
  | start | stop | sendb _ | setf _ _ | wrf _ | brt _ | rend _ _ | init | lut _ => cases hi

/-- Settles O38: a `[0x40]` that stands alone has its effect. -/
theorem wDataAutoResult : Obligations.WDataAutoResult := by
  intro s h
  exact congrArg Host.Outcome.next (State.deviceAlone_of_nil h _)

/-- The control byte of a level, with `+` as the rules write it (R58, R130). -/
theorem ctrlOn_or_eq_add (lvl : BitVec 3) : 0x88#8 ||| lvl.setWidth 8 = 0x88#8 + lvl.setWidth 8 := by
  revert lvl
  decide

/-- Settles O41: a `[0x88 + lvl]` that stands alone has its effect. -/
theorem wCtrlOnResult : Obligations.WCtrlOnResult := by
  intro s lvl h
  rw [← ctrlOn_or_eq_add]
  exact congrArg Host.Outcome.next (State.deviceAlone_of_nil h _)

/-- A data byte is in the register it is addressed to (R58). -/
theorem dregAfter_written {a i : Nat} {ds : List Byte} {d : Byte} (h : a ≤ i) (hd : ds[i - a]? = some d)
    (old free : Byte) : dregAfter a ds old free i = d := by
  rw [dregAfter, if_pos h, hd]

/-- A register that no data byte is addressed to stays, where none is addressed past the fourth (R58). -/
theorem dregAfter_unwritten {a i : Nat} {ds : List Byte} (h : i < a ∨ ds.length ≤ i - a) (hfit : a + ds.length ≤ 4)
    (old free : Byte) : dregAfter a ds old free i = old := by
  unfold dregAfter
  by_cases hi : a ≤ i
  · have hlen : ds.length ≤ i - a := h.resolve_left (Nat.not_lt.mpr hi)
    rw [if_pos hi, List.getElem?_eq_none hlen]
  · rw [if_neg hi, if_pos hfit]

/-- Each digit register after data bytes in auto-increment mode (R58). -/
theorem Device.writeAuto_get (d : Device) (inst a : Nat) (ds : List Byte) (i : BitVec 2) :
    (d.writeAuto inst a ds).dreg.get i = dregAfter a ds (d.dreg.get i) ((freeFrame inst d.draws).get i) i.toNat := by
  rcases regIdx_cases i with rfl | rfl | rfl | rfl <;> rfl

/-- Settles O40: register by register. -/
theorem wAddrResult : Obligations.WAddrResult := by
  intro s off
  obtain ⟨f, n, he⟩ := exec_wAddr_dreg off s
  refine ⟨_, he, rfl, fun hmode i => ?_⟩
  have hdev : ({ s.dev.pop with dreg := f, draws := n } : Device) =
      s.dev.pop.writeAuto s.inst off.toNat s.dev.dataBytes := by
    rw [exec_wAddr_auto off hmode] at he
    injection he with he
    exact (congrArg State.dev he).symm
  rw [hdev, Device.writeAuto_get]
  exact ⟨fun d hle hd => dregAfter_written hle hd _ _, fun hun hfit => dregAfter_unwritten hun hfit _ _⟩

/-- The device runs the command byte that heads its oldest closed transaction (R58, R79). -/
theorem deviceStep_run {s : State} {b : Byte} {ds : List Byte} {rest : List (List Byte)} {i : Instr}
    (h : s.dev.rx.closed = (b :: ds) :: rest) (hb : decode (.wire b) = .ok i) : deviceStep s = exec i s := by
  have hw : deviceWork s.dev = .run i := by simp only [deviceWork, h, hb]
  simp only [deviceStep, hw]

/-- Settles O5: the device's part of the step runs the byte and leaves the block, which waits if it is idle. -/
theorem stepRunsWireCommand : Obligations.StepRunsWireCommand := by
  intro s b ds rest i h hb
  have hstep : step s = andThen (exec i s) blockStep := by rw [step, deviceStep_run h hb]
  refine ⟨hstep, fun hidle hhost => ?_⟩
  obtain ⟨d, hd⟩ := exec_wire (decodeWire_isWire hb) s
  rw [hstep, hd, andThen_of_next, blockStep_idle (by exact hidle) (by exact hhost)]

end Sys2Proof.Machine
end

section
/-! PROOF. A system of several blocks (R64, R191): a step of the system is a step of one of them. -/

namespace Sys2Proof.Machine

/-- No step changes a block's parameters: the table, its number, who answers (R9, R51; log entries 15, 17, 19). -/
theorem step_parameters {s t : State} (h : step s = .next t) :
    t.seg = s.seg ∧ t.inst = s.inst ∧ t.responder = s.responder := by
  obtain ⟨d, hm, rfl | ⟨-, a, -, rfl⟩ | ⟨-, i, f, r, -, -, rfl⟩ | ⟨-, b, rfl⟩⟩ := step_cases h
  · exact ⟨rfl, rfl, rfl⟩
  · exact ⟨State.act_seg _ a, State.act_inst _ a, State.act_responder _ a⟩
  · exact ⟨rfl, rfl, rfl⟩
  · exact ⟨rfl, rfl, rfl⟩

/-- Everything a step of the system can do: nothing where there is no block `k`, else the step of block `k`
(R64). -/
theorem systemStep_cases {sys sys' : List State} {k : Nat} (h : systemStep sys k = .next sys') :
    (sys[k]? = none ∧ sys' = sys) ∨ ∃ s t, sys[k]? = some s ∧ step s = .next t ∧ sys' = sys.set k t := by
  unfold systemStep at h
  split at h
  · next hk =>
    injection h with h
    exact .inl ⟨hk, h.symm⟩
  · next s hk =>
    split at h
    · next t ht =>
      injection h with h
      exact .inr ⟨s, t, hk, ht, h.symm⟩
    · cases h
    · cases h

/-- Settles O58: replacing one entry of a list keeps its length and the other entries. -/
theorem instancesAreIndependent : Obligations.InstancesAreIndependent := by
  refine ⟨by simp [systemReset], fun k hk => by simp [systemReset, hk], fun sys sys' k h => ?_⟩
  obtain ⟨hk, rfl⟩ | ⟨s, t, hk, ht, rfl⟩ := systemStep_cases h
  · exact ⟨rfl, fun _ _ => rfl, fun s hs => absurd (hk.symm.trans hs) nofun⟩
  · refine ⟨List.length_set, fun j hj => List.getElem?_set_ne hj.symm, fun s' hs' => ?_⟩
    obtain rfl : s = s' := Option.some.inj (hk.symm.trans hs')
    obtain ⟨hlt, -⟩ := List.getElem?_eq_some_iff.mp hk
    exact ⟨t, ht, List.getElem?_set_self hlt, step_parameters ht⟩

end Sys2Proof.Machine
end

section
/-! PROOF. The encoding as a whole (R70 to R76, R79): the code spaces' rows do not overlap, a word is legal iff it selects a
row, and decoding and encoding are inverse to each other. -/

namespace Sys2Proof

/-- A row of R72 selects the words that its mask takes to its pattern. -/
theorem Row.selects_iff {r : Row} {w : Word} : r.selects w = true ↔ w &&& r.mask = r.pattern := beq_iff_eq

/-- The nine cases of R76 are the rows of R72, the LUT row with its index in the table. -/
theorem legal_iff_selects (w : Word) :
    legal w = true ↔ ∃ r ∈ hostRows, r.selects w = true ∧ (r.mnemonic = "LUT" → lidxField w ≤ 10#4) := by
  have hfull : w &&& 0xFFFFFFFF#32 = w := BitVec.and_allOnes
  simp [legal, hostRows, Row.selects_iff, hfull, or_assoc]

/-- A legal word decodes (R76). -/
theorem decodes_of_legal {w : Word} (h : legal w = true) : ∃ i, decodeWord w = .ok i := by
  simp only [legal, Bool.or_eq_true, Bool.and_eq_true, beq_iff_eq, decide_eq_true_eq] at h
  obtain (((((((rfl | rfl) | hrow) | hrow) | hrow) | hrow) | hrow) | rfl) | ⟨hrow, hle⟩ := h
  · exact ⟨.start, by decide⟩
  · exact ⟨.stop, by decide⟩
  · exact ⟨_, decodeWord_sendb hrow⟩
  · exact ⟨_, decodeWord_setf hrow⟩
  · exact ⟨_, decodeWord_wrf hrow⟩
  · exact ⟨_, decodeWord_brt hrow⟩
  · exact ⟨_, decodeWord_rend hrow⟩
  · exact ⟨.init, by decide⟩
  · exact ⟨_, decodeWord_lut hrow hle⟩

/-- A word is legal iff it decodes (R76). -/
theorem legal_iff_decodes (w : Word) : legal w = true ↔ ∃ i, decode (.word w) = .ok i := by
  refine ⟨decodes_of_legal, fun ⟨i, hi⟩ => ?_⟩
  by_contra hl
  rw [decode, Machine.decodeWord_of_not_legal (Bool.eq_false_of_not_eq_true hl)] at hi
  cases hi

/-- Settles O12. -/
theorem legalIffDecodes : Obligations.LegalIffDecodes := fun w => ⟨legal_iff_decodes w, legal_iff_selects w⟩

/-- A word has the opcode of a row that it selects (R70, R72). -/
theorem Row.opcField_of_selects {r : Row} (hr : r ∈ hostRows) {w : Word} (h : r.selects w = true) :
    opcField w = opcField r.pattern := by
  have hmask : ∀ r ∈ hostRows, r.mask.extractLsb' 28 4 = 15#4 := by decide
  exact opcField_of_mask (Row.selects_iff.mp h) (hmask r hr)

/-- The rows of R72 have different opcodes. -/
theorem Row.eq_of_opcField : ∀ r ∈ hostRows, ∀ r' ∈ hostRows, opcField r.pattern = opcField r'.pattern → r = r' := by
  decide

/-- A code that two rows match makes their patterns agree where both masks look (R72, R79). -/
theorem patterns_agree {n : Nat} {c m p m' p' : BitVec n} (h : c &&& m = p) (h' : c &&& m' = p') :
    p &&& m' = p' &&& m := by
  rw [← h, ← h', BitVec.and_assoc, BitVec.and_assoc, BitVec.and_comm m]

/-- Settles O13: two host rows differ in the opcode; the patterns of two wire rows disagree within both masks. -/
theorem rowsAreDisjoint : Obligations.RowsAreDisjoint := by
  refine ⟨fun w r r' hr hr' h h' => ?_, fun b r r' hr hr' h h' => ?_⟩
  · exact Row.eq_of_opcField r hr r' hr' (by rw [← Row.opcField_of_selects hr h, Row.opcField_of_selects hr' h'])
  · have hwire : ∀ i j : Fin wireRows.length, (wireRows.get i).2 &&& (wireRows.get j).1 =
        (wireRows.get j).2 &&& (wireRows.get i).1 → i = j := by decide
    obtain ⟨i, rfl⟩ := List.get_of_mem hr
    obtain ⟨j, rfl⟩ := List.get_of_mem hr'
    rw [hwire i j (patterns_agree h h')]

/-- Settles O14: no row of the table has a reserved opcode. -/
theorem reservedOpcodesIllegal : Obligations.ReservedOpcodesIllegal := by
  intro w hres
  have hrows : ∀ r ∈ hostRows, ¬(opcField r.pattern = 0#4 ∨ 10#4 ≤ opcField r.pattern) := by decide
  have hillegal : legal w = false := by
    by_contra hl
    obtain ⟨r, hr, hsel, -⟩ := (legal_iff_selects w).mp (Bool.eq_true_of_not_eq_false hl)
    exact hrows r hr (Row.opcField_of_selects hr hsel ▸ hres)
  exact ⟨hillegal, by rw [decode, Machine.decodeWord_of_not_legal hillegal, illegalReason, if_pos (by exact hres)]⟩

/-- Setting a bit below the opcode keeps the opcode (R70). -/
theorem opcField_setBit (w : Word) {k : Nat} (hk : k < 28) : opcField (w ||| BitVec.twoPow 32 k) = opcField w := by
  have hbit : (BitVec.twoPow 32 k).extractLsb' 28 4 = 0#4 := by
    apply BitVec.eq_of_getLsbD_eq
    intro j _
    simp [show k ≠ 28 + j by omega]
  rw [opcField, BitVec.extractLsb'_or, hbit, BitVec.or_zero, opcField]

/-- Settles O15: with the bit set the word could select only the row of its opcode, which selects the word itself; that
row's pattern is 0 below the opcode. -/
theorem reservedBitsIllegal : Obligations.ReservedBitsIllegal := by
  intro w k hw hk hmask
  have hzero : ∀ r ∈ hostRows, ∀ j < 28, r.pattern.getLsbD j = false := by decide
  by_contra hl
  obtain ⟨r, hr, hsel, -⟩ := (legal_iff_selects w).mp hw
  obtain ⟨r', hr', hsel', -⟩ := (legal_iff_selects _).mp (Bool.eq_true_of_not_eq_false hl)
  obtain rfl : r = r' := Row.eq_of_opcField r hr r' hr' <| by
    rw [← Row.opcField_of_selects hr hsel, ← Row.opcField_of_selects hr' hsel', opcField_setBit w hk]
  have hpattern : r.pattern.getLsbD k = true := by
    rw [← Row.selects_iff.mp hsel']
    simp [hmask r hr hsel, show k < 32 by omega]
  exact absurd hpattern (by simp [hzero r hr k hk])

/-- A host command's code is its word (R71). -/
theorem encode_host {i : Instr} (h : i.isHost = true) : encode i = .word (encodeWord i) := by
  cases i with
  | start | stop | sendb _ | setf _ _ | wrf _ | brt _ | rend _ _ | init | lut _ => rfl
  | wDataAuto | wDataFixed | wAddr _ | wCtrlOn _ => cases h

/-- Settles O10: host words by their rows, wire bytes by their few operand values. -/
theorem decodeOfEncode : Obligations.DecodeOfEncode := by
  intro i hw
  cases hi : i.isHost with
  | true => rw [encode_host hi, decode_encodeWord hi hw]
  | false =>
    cases i with
    | wDataAuto | wDataFixed => decide
    | wAddr off => revert off; decide
    | wCtrlOn lvl => revert lvl; decide
    | start | stop | sendb _ | setf _ _ | wrf _ | brt _ | rend _ _ | init | lut _ => cases hi

/-- A code that a row matches is the row's pattern with the bits under the mask as operand (R71, R79). -/
theorem pattern_or_operand {k : Nat} (n : Nat) {c m p : BitVec k} (h : c &&& m = p) (hm : m = BitVec.allOnes k <<< n) :
    p ||| (c.extractLsb' 0 n).setWidth k = c := by
  subst h hm
  apply BitVec.eq_of_getLsbD_eq
  intro j hj
  by_cases hn : j < n <;> simp [hj, hn]

/-- Two fields side by side are one field (R71). -/
theorem fields_or {k : Nat} (w : BitVec k) (m n : Nat) :
    ((w.extractLsb' n m).setWidth k <<< n) ||| (w.extractLsb' 0 n).setWidth k =
      (w.extractLsb' 0 (n + m)).setWidth k := by
  apply BitVec.eq_of_getLsbD_eq
  intro j hj
  by_cases hn : j < n
  · simp [hj, hn, show j < n + m by omega]
  · simp [hj, hn, show n + (j - n) = j by omega, show j - n < m ↔ j < n + m by omega]

/-- A word is the encoding of what it decodes to: no bit is ignored (R70 to R72, R74). -/
theorem encode_of_decodeWord {w : Word} {i : Instr} (h : decodeWord w = .ok i) : encode i = .word w := by
  unfold decodeWord at h
  split_ifs at h with hstart hstop hsendb hsetf hwrf hbrt hrend hinit hlut <;> injection h with h <;> subst h
  · exact congrArg Code.word hstart.symm
  · exact congrArg Code.word hstop.symm
  · exact congrArg Code.word (pattern_or_operand 8 hsendb (by decide))
  · refine congrArg Code.word ?_
    rw [BitVec.or_assoc, idxField, imm8Field, fields_or w 2 8, pattern_or_operand 10 hsetf (by decide)]
  · exact congrArg Code.word (pattern_or_operand 2 hwrf (by decide))
  · exact congrArg Code.word (pattern_or_operand 8 hbrt (by decide))
  · refine congrArg Code.word ?_
    rw [BitVec.or_assoc, colonField, valueField, fields_or w 1 16, pattern_or_operand 17 hrend (by decide)]
  · exact congrArg Code.word hinit.symm
  · obtain ⟨hrow, -⟩ := hlut
    exact congrArg Code.word (pattern_or_operand 4 hrow (by decide))

/-- A wire byte is the encoding of what it decodes to (R79). -/
theorem encode_of_decodeWire {b : Byte} {i : Instr} (h : decodeWire b = .ok i) : encode i = .wire b := by
  unfold decodeWire at h
  split_ifs at h with hauto hfixed haddr hctrl <;> injection h with h <;> subst h
  · exact congrArg Code.wire hauto.symm
  · exact congrArg Code.wire hfixed.symm
  · exact congrArg Code.wire (pattern_or_operand 2 haddr (by decide))
  · exact congrArg Code.wire (pattern_or_operand 3 hctrl (by decide))

/-- Settles O11. -/
theorem encodeOfDecode : Obligations.EncodeOfDecode := by
  intro c i h
  refine ⟨decode_wf h, ?_⟩
  cases c with
  | word w => exact encode_of_decodeWord h
  | wire b => exact encode_of_decodeWire h

/-- Settles O9: each of the words and bytes is the encoding of its instruction. -/
theorem specWordsDecode : Obligations.SpecWordsDecode :=
  ⟨decodeOfEncode .start rfl, decodeOfEncode .stop rfl, decodeOfEncode (.sendb 0xB2#8) rfl,
    decodeOfEncode (.setf 2#2 0x76#8) rfl, decodeOfEncode (.wrf 3#2) rfl, decodeOfEncode (.brt 255#8) rfl,
    decodeOfEncode (.rend 65535#16 1#1) rfl, decodeOfEncode .init rfl, decodeOfEncode (.lut 10#4) rfl,
    decodeOfEncode .wDataAuto rfl, decodeOfEncode .wDataFixed rfl, decodeOfEncode (.wAddr 2#2) rfl,
    decodeOfEncode (.wCtrlOn 5#3) rfl⟩

/-- The word of a well-formed host command is legal (R76, R82). -/
theorem legal_encodeWord {i : Instr} (h : i.isHost = true) (hw : i.wf = true) : legal (encodeWord i) = true :=
  (legal_iff_decodes _).mpr ⟨i, decode_encodeWord h hw⟩

end Sys2Proof
end

section
/-! PROOF. Legal and illegal words at the command port (R77) and out of the assembler (R82); the operands that are clamped
or wrapped (R77, R137, R153). -/

namespace Sys2Proof.Machine

/-- An assembler line stands for a well-formed host command: the operand ranges of R82 keep the index of LUT in the table
(R76). -/
theorem asmInstr_host_wf {l : AsmLine} {i : Instr} (h : asmInstr l = some i) : i.isHost = true ∧ i.wf = true := by
  cases l with
  | start | stop | init =>
    obtain rfl := Option.some.inj h
    exact ⟨rfl, rfl⟩
  | sendb _ | setf _ _ | wrf _ | brt _ | rend _ _ =>
    obtain ⟨-, ⟨⟩⟩ := Option.ite_none_right_eq_some.mp h
    exact ⟨rfl, rfl⟩
  | lut l =>
    obtain ⟨hl, ⟨⟩⟩ := Option.ite_none_right_eq_some.mp h
    have hle : BitVec.ofNat 4 l ≤ 10#4 := by rw [BitVec.le_def, BitVec.toNat_ofNat, BitVec.toNat_ofNat]; omega
    exact ⟨rfl, decide_eq_true hle⟩

/-- Settles O16: the word is the encoding of a well-formed host command. -/
theorem assemblerGivesLegalWords : Obligations.AssemblerGivesLegalWords := by
  intro l w h
  obtain ⟨i, hi, rfl⟩ := Option.map_eq_some_iff.mp h
  obtain ⟨hhost, hwf⟩ := asmInstr_host_wf hi
  exact ⟨legal_encodeWord hhost hwf, i, hi, decode_encodeWord hhost hwf⟩

/-- A word presented to an idle block is accepted in the step, after the device's part (R7, R34). -/
theorem step_present {s : State} {w : Word} {rest : List HostMove} (hb : s.busy = false)
    (hh : s.host = .present w :: rest) :
    ∃ d, deviceStep s = .next { s with dev := d } ∧ step s = acceptWord w { s with host := rest, dev := d } := by
  obtain ⟨d, hd⟩ := deviceStep_dev s
  exact ⟨d, hd, by rw [step, hd, andThen_of_next, blockStep_accept (by exact hb) (by exact hh)]⟩

/-- An idle block accepts an illegal word by setting `ILL` (R77). -/
theorem acceptWord_illegal {s : State} (hb : s.busy = false) {w : Word} (hw : legal w = false) :
    acceptWord w s = .next { s with ill := true } := by
  simp [acceptWord, decode, decodeWord_of_not_legal hw, acceptIllegal, hb]

/-- An idle block accepts a legal word with a next state in which `ILL` is cleared (R34, R77). -/
theorem acceptWord_legal {s : State} (hb : s.busy = false) {w : Word} (hw : legal w = true) :
    ∃ t, acceptWord w s = .next t ∧ t.ill = false := by
  obtain ⟨i, hi⟩ := (legal_iff_decodes w).mp hw
  obtain ⟨f, r, he⟩ := exec_host (decodeWord_isHost hi) (decode_wf hi) hb
  rw [acceptWord, hi]
  exact ⟨_, he, rfl⟩

/-- A clamped level is not clamped again (R137). -/
theorem clampLevel_clampLevel (l : Byte) : clampLevel (clampLevel l) = clampLevel l := by
  unfold clampLevel
  split_ifs with hl h7
  · rfl
  · rfl
  · exact absurd (by decide) h7

/-- The four digits of a value are those of the value modulo 10000 (R153). -/
theorem digit_mod (v : BitVec 16) {i : Nat} (hi : i < 4) : digit (BitVec.ofNat 16 (v.toNat % 10000)) i = digit v i := by
  have hmod : (BitVec.ofNat 16 (v.toNat % 10000)).toNat = v.toNat % 10000 := by rw [BitVec.toNat_ofNat]; omega
  unfold digit
  rw [hmod]
  interval_cases i <;> omega

/-- A value is rendered as the value modulo 10000 (R77, R153). -/
theorem renderFrame_mod (t : SegTable) (v : BitVec 16) (c : BitVec 1) :
    renderFrame t (BitVec.ofNat 16 (v.toNat % 10000)) c = renderFrame t v c := by
  have hdigits : digitsMsbFirst (BitVec.ofNat 16 (v.toNat % 10000)) = digitsMsbFirst v := by
    simp (disch := decide) only [digitsMsbFirst, digit_mod]
  rw [renderFrame, hdigits, renderFrame]

/-- Settles O8: the accept step after the device's part; the words of BRT and REND are encodings; the control byte clamps
the level and the render reads the value's four digits. -/
theorem illegalWordSetsIllOnly : Obligations.IllegalWordSetsIllOnly := by
  refine ⟨fun s w rest hb hh hw => ?_, fun s w rest hb hh hw => ?_, fun l => legal_encodeWord (i := .brt l) rfl rfl,
    fun c v => legal_encodeWord (i := .rend v c) rfl rfl, fun t l f => ?_, fun t v c f => ?_⟩
  · obtain ⟨d, hd, hs⟩ := step_present hb hh
    exact ⟨d, hd, hs.trans (acceptWord_illegal (by exact hb) hw)⟩
  · obtain ⟨d, -, hs⟩ := step_present hb hh
    rw [hs]
    exact acceptWord_legal (by exact hb) hw
  · show brtList l = brtList (clampLevel l)
    rw [brtList, brtList, ctrlByte, ctrlByte, clampLevel_clampLevel]
  · show actionsRend t v c = actionsRend t _ c
    rw [actionsRend, actionsRend, renderFrame_mod]

end Sys2Proof.Machine
end

section
/-! PROOF. The bus primitives (R106, R108, R110): the lists `Start()`, `Stop()`, `SendByte(v)` and what their actions have
in common whatever the bytes sent (R112). -/

namespace Sys2Proof.Machine

/-- Settles O17: the lists are written out; from output mode the pins before the fourth action of `Start()` and the sixth of
`Stop()` do not depend on the levels at entry. -/
theorem startAndStopLists : Obligations.StartAndStopLists := by
  refine ⟨rfl, rfl, fun m => by simp [startList, stopList],
    fun p => ⟨applyAll_startList p, applyAll_stopList p⟩, ?_⟩
  rintro ⟨c, d, m⟩ hm
  obtain rfl : m = .outOd := hm
  exact ⟨rfl, rfl⟩

/-- Settles O18: no count and no position depends on the byte, whose bits only stand in the levels. -/
theorem sendByteList : Obligations.SendByteList :=
  fun v => ⟨sendByte_length v, rfl, rfl, rfl, rfl, rfl, fun p => applyAll_sendByte p v⟩

/-- The kinds of the actions of `Bit(b)` (R110). -/
def bitKinds : List ActionKind := [.clk, .dly, .dio, .dly, .clk, .dly]

@[simp] theorem map_kindOf_bitList (b : Bool) : (bitList b).map kindOf = bitKinds := rfl

/-- The kinds of the actions of a byte: eight bits and the acknowledgment slot (R110). -/
def byteKinds : List ActionKind := (List.replicate 8 bitKinds).flatten ++ ackList.map kindOf

@[simp] theorem map_kindOf_sendByte (v : Byte) : (sendByte v).map kindOf = byteKinds := by
  simp [sendByte, byteKinds, List.replicate]

/-- The kinds of `Brt` are independent of the level (R112, R137). -/
theorem map_kindOf_brtList (l l' : Byte) : (brtList l).map kindOf = (brtList l').map kindOf := by
  simp only [brtList, List.map_append, map_kindOf_sendByte]

/-- The kinds of `Wrf` are independent of the offset and the frame (R112, R134). -/
theorem map_kindOf_wrfList (off off' : BitVec 2) (f f' : Frame) :
    (wrfList off f).map kindOf = (wrfList off' f').map kindOf := by
  simp only [wrfList, List.map_append, map_kindOf_sendByte]

/-- Settles O19: WRF and REND are both `Wrf`, whose bytes alone depend on the data. -/
theorem controlIndependentOfData : Obligations.ControlIndependentOfData :=
  ⟨fun v v' => (map_kindOf_sendByte v).trans (map_kindOf_sendByte v').symm,
    fun _ _ l l' _ _ => map_kindOf_brtList l l',
    fun _ t' off v c f _ => map_kindOf_wrfList off 0#2 f (renderFrame t' v c)⟩

end Sys2Proof.Machine
end

section
/-! PROOF. A whole command without an immediate effect (R34, R35): what it leaves in the fields a host reads; with it START,
STOP and SENDB (R107, R109, R111). -/

namespace Sys2Proof.Machine

/-- The accept step of a command without an immediate effect (R34). -/
def State.accepted (s : State) (i : Instr) : State := s.latch (encodeWord i) (commandActions s.seg i s.f)

/-- The state after the whole of a command without an immediate effect (R35). -/
def State.afterCommand (s : State) (i : Instr) : State := (s.accepted i).actAll (commandActions s.seg i s.f)

/-- A command that is accepted without an immediate effect is performed whole (R34, R35). -/
theorem runCommand_of_accepted {s : State} {i : Instr} (hi : i.isHost = true) (hw : i.wf = true)
    (h : exec i s = .next (s.accepted i)) : runCommand i s = .next (s.afterCommand i) := by
  rw [runCommand, h, andThen_of_next, State.complete, State.accepted, remaining_latch s hi hw]
  rfl

section AfterCommand
variable (s : State) (i : Instr)

/-- The trace grows by the command's actions (R36). -/
@[simp] theorem State.afterCommand_performed :
    (s.afterCommand i).performed = s.performed ++ commandActions s.seg i s.f := State.actAll_performed _ _

/-- The pins are what the command's actions make of them (R101 to R103). -/
@[simp] theorem State.afterCommand_pins : (s.afterCommand i).pins = s.pins.applyAll (commandActions s.seg i s.f) :=
  State.actAll_pins _ _

/-- A legal command clears `ILL` (R34, R77). -/
@[simp] theorem State.afterCommand_ill : (s.afterCommand i).ill = false := State.actAll_ill _ _

/-- No action writes the frame registers (R21). -/
@[simp] theorem State.afterCommand_f : (s.afterCommand i).f = s.f := State.actAll_f _ _

/-- After its last action the block is idle: `UPC` has counted to `UPC_END` (R22, R23). -/
@[simp] theorem State.afterCommand_busy : (s.afterCommand i).busy = false := by
  have hupc : (s.afterCommand i).upc = (s.afterCommand i).upcEnd := by
    simp [State.afterCommand, State.accepted, State.actAll_upc]
  simp [State.busy, hupc]

end AfterCommand

/-- Settles O24: the accept step latches START; `Start()` takes no sample. -/
theorem startResult : Obligations.StartResult := by
  intro s hb
  have he : exec .start s = .next (s.accepted .start) := accept_idle hb id _ _
  exact ⟨he, s.afterCommand .start, runCommand_of_accepted rfl rfl he, s.afterCommand_performed .start,
    (s.afterCommand_pins .start).trans (applyAll_startList s.pins), State.ack_startList (s.accepted .start),
    s.afterCommand_ill .start, s.afterCommand_busy .start⟩

/-- Settles O25: the accept step latches STOP; `Stop()` takes no sample. -/
theorem stopResult : Obligations.StopResult := by
  intro s hb
  have he : exec .stop s = .next (s.accepted .stop) := accept_idle hb id _ _
  exact ⟨he, s.afterCommand .stop, runCommand_of_accepted rfl rfl he, s.afterCommand_performed .stop,
    (s.afterCommand_pins .stop).trans (applyAll_stopList s.pins), State.ack_stopList (s.accepted .stop),
    s.afterCommand_ill .stop, s.afterCommand_busy .stop⟩

/-- Settles O26: the accept step latches SENDB and changes nothing that answers the one sample of `SendByte(v)`. -/
theorem sendbResult : Obligations.SendbResult := by
  intro s v hb
  have he : exec (.sendb v) s = .next (s.accepted (.sendb v)) := accept_idle hb id _ _
  exact ⟨he, s.afterCommand (.sendb v), runCommand_of_accepted rfl rfl he, s.afterCommand_performed (.sendb v),
    (s.afterCommand_pins (.sendb v)).trans (applyAll_sendByte s.pins v),
    fun hr => State.ack_sendByte (s.accepted (.sendb v)) hr v,
    fun hr hm => State.ack_sendByte_device (s.accepted (.sendb v)) hr hm v,
    s.afterCommand_ill (.sendb v), s.afterCommand_busy (.sendb v)⟩

end Sys2Proof.Machine
end

section
/-! PROOF. The display commands SETF, WRF, BRT (R131, R134, R135, R137, R138): the register SETF writes, the lists `Wrf` and
`Brt` as the rules write them and the pins they leave, and the clamped level. -/

namespace Sys2Proof.Machine

/-- A frame register reads back what was written to it (R11, R131). -/
@[simp] theorem Frame.get_set_same (f : Frame) (i : BitVec 2) (v : Byte) : (f.set i v).get i = v := by
  rcases regIdx_cases i with rfl | rfl | rfl | rfl <;> rfl

/-- What a frame reads after one register was written (R11, R131). -/
theorem Frame.get_set (f : Frame) (i j : BitVec 2) (v : Byte) : (f.set i v).get j = if j = i then v else f.get j := by
  split
  case isTrue h => rw [h, Frame.get_set_same]
  case isFalse h => exact Frame.get_set_ne f v h

/-- The clamp compares the level as a number with 7 (R137). -/
theorem clampLevel_eq_ite (l : Byte) : clampLevel l = if l.toNat ≤ 7 then l else 7#8 := rfl

/-- As a number the clamped level is the smaller of the level and 7 (R137). -/
theorem clampLevel_toNat (l : Byte) : (clampLevel l).toNat = min l.toNat 7 := by
  rw [clampLevel_eq_ite]
  split
  case isTrue h => exact (Nat.min_eq_left h).symm
  case isFalse h => exact (Nat.min_eq_right (Nat.le_of_not_le h)).symm

/-- `Wrf` leaves the bus idle, whatever the pins at entry (R41, R134). -/
theorem applyAll_wrfList (p : Pins) (off : BitVec 2) (f : Frame) : p.applyAll (wrfList off f) = Pins.idle := by
  simp only [wrfList, Pins.applyAll_append, applyAll_sendByte, applyAll_stopList, Pins.idle]

/-- `Brt` leaves the bus idle, whatever the pins at entry (R41, R137). -/
theorem applyAll_brtList (p : Pins) (l : Byte) : p.applyAll (brtList l) = Pins.idle := by
  simp only [brtList, Pins.applyAll_append, applyAll_sendByte, applyAll_stopList, Pins.idle]

/-- `Wrf` in the order of R134, its bytes named by their register. -/
theorem wrfList_eq_append (off : BitVec 2) (f : Frame) :
    wrfList off f = startList ++ sendByte 0x40#8 ++ stopList ++ startList ++ sendByte (0xC0#8 ||| off.setWidth 8)
      ++ sendByte (f.get 0#2) ++ sendByte (f.get 1#2) ++ sendByte (f.get 2#2) ++ sendByte (f.get 3#2) ++ stopList := by
  simp only [wrfList, List.append_assoc]
  rfl

/-- The accept step as R34 writes it, for a command whose list has a known length. -/
theorem State.accepted_of_length {s : State} {i : Instr} {n : Nat} (h : (commandActions s.seg i s.f).length = n) :
    s.accepted i =
      { s with ill := false, cur := ⟨encodeWord i, s.f⟩, upc := 0#9, upcEnd := BitVec.ofNat 9 n } :=
  h ▸ rfl

/-- Settles O42: the clamped level is at most 7, so the sum with 0x88 stays in the byte. -/
theorem levelIsClamped : Obligations.LevelIsClamped := by
  intro l
  have hctrl : ctrlByte l = 0x88#8 + clampLevel l := ctrlByte_eq_add l
  rw [hctrl, BitVec.toNat_add, clampLevel_toNat]
  exact Nat.mod_eq_of_lt (by simp only [BitVec.toNat_ofNat]; omega)

/-- Settles O27: the accept step writes the register before it latches, and the empty list leaves the block idle. -/
theorem setfResult : Obligations.SetfResult := by
  intro s idx v hb
  have he : exec (.setf idx v) s = .next ({ s with f := s.f.set idx v }.latch (encodeWord (.setf idx v)) actionsSetf) :=
    accept_idle hb (fun t => { t with f := t.f.set idx v }) _ _
  exact ⟨_, he, rfl, fun j => Frame.get_set s.f idx j v, rfl⟩

/-- Settles O28: the accept step latches WRF with `F`; the START of each transaction makes the device receive the bytes whose
samples follow, so that the sixth answer is left in `ACK`. -/
theorem wrfResult : Obligations.WrfResult := by
  intro s off hb
  have he : exec (.wrf off) s = .next (s.accepted (.wrf off)) := accept_idle hb id _ _
  refine ⟨he.trans (congrArg _ (State.accepted_of_length (wrfList_length off s.f))), s.afterCommand (.wrf off),
    runCommand_of_accepted rfl rfl he, ?_,
    (s.afterCommand_pins (.wrf off)).trans (applyAll_wrfList s.pins off s.f),
    State.ack_wrfList (s.accepted (.wrf off)) off s.f, s.afterCommand_ill (.wrf off), s.afterCommand_busy (.wrf off),
    s.afterCommand_f (.wrf off)⟩
  rw [← wrfList_eq_append]
  exact s.afterCommand_performed (.wrf off)

/-- Settles O29: the accept step latches BRT and leaves the data pin's mode, in which START makes the device receive the
control byte. -/
theorem brtResult : Obligations.BrtResult := by
  intro s l hb
  have he : exec (.brt l) s = .next (s.accepted (.brt l)) := accept_idle hb id _ _
  refine ⟨he.trans (congrArg _ (State.accepted_of_length (brtList_length l))), s.afterCommand (.brt l),
    runCommand_of_accepted rfl rfl he, ?_,
    (s.afterCommand_pins (.brt l)).trans (applyAll_brtList s.pins l),
    fun hm => State.ack_brtList (s.accepted (.brt l)) hm l, s.afterCommand_ill (.brt l), s.afterCommand_busy (.brt l)⟩
  rw [← clampLevel_eq_ite]
  exact s.afterCommand_performed (.brt l)

end Sys2Proof.Machine
end

section
/-! PROOF. The commands LUT and REND (R152, R157) and the decimal render (R153 to R156, R159): its closed form, from which
follow which positions are blank and where the colon stands. -/

namespace Sys2Proof.Machine

/-- No action writes `RES` (R28). -/
@[simp] theorem State.afterCommand_res (s : State) (i : Instr) : (s.afterCommand i).res = s.res := State.actAll_res _ _

/-- Settles O30: the accept step latches REND, which performs `Wrf` with the rendered frame. -/
theorem rendResult : Obligations.RendResult := by
  intro s v c hb
  have he : exec (.rend v c) s = .next (s.accepted (.rend v c)) := accept_idle hb id _ _
  exact ⟨he.trans (congrArg _ (State.accepted_of_length (wrfList_length 0#2 (renderFrame s.seg v c)))),
    s.afterCommand (.rend v c), runCommand_of_accepted rfl rfl he, s.afterCommand_performed (.rend v c),
    (s.afterCommand_pins (.rend v c)).trans (applyAll_wrfList s.pins 0#2 (renderFrame s.seg v c)),
    State.ack_wrfList (s.accepted (.rend v c)) 0#2 (renderFrame s.seg v c), s.afterCommand_ill (.rend v c),
    s.afterCommand_busy (.rend v c), s.afterCommand_f (.rend v c), s.afterCommand_res (.rend v c)⟩

/-- An index of the table has a code (R51). -/
theorem segRead_of_lt (t : SegTable) {idx : Nat} (h : idx < 11) : segRead t idx = some t[idx] :=
  Vector.getElem?_eq_getElem h

/-- Settles O32: an index of the table is read at acceptance, another is an illegal word. -/
theorem lutResult : Obligations.LutResult := by
  refine ⟨fun s l hb => ⟨fun hl => ?_, fun hl => ?_⟩, rfl⟩
  · simp only [exec, execLut, segRead_of_lt s.seg hl]
    exact accept_idle hb (fun t => { t with res := s.seg[l.toNat] }) _ _
  · simp only [exec, execLut, segRead_none s.seg (BitVec.le_def.mp hl), acceptIllegal, hb]
    rfl

/-- After the first shown digit every digit is shown (R154). -/
theorem blankLeading_false (t : SegTable) (ds : List Nat) : blankLeading t false ds = ds.map (segCode t) := by
  induction ds with
  | nil => rfl
  | cons d ds ih =>
    cases ds with
    | nil => rfl
    | cons e ds => simp [blankLeading, ih]

/-- A leading digit that is not the last is blank iff it is 0 (R154). -/
theorem blankLeading_true (t : SegTable) (d e : Nat) (ds : List Nat) :
    blankLeading t true (d :: e :: ds) =
      if d = 0 then segCode t blankIdx :: blankLeading t true (e :: ds) else (d :: e :: ds).map (segCode t) := by
  simp [blankLeading, blankLeading_false]

/-- The digits are those of the value modulo 10000 (R153). -/
theorem digitsMsbFirst_eq (v : BitVec 16) :
    digitsMsbFirst v =
      [v.toNat % 10000 / 1000, v.toNat % 10000 / 100 % 10, v.toNat % 10000 / 10 % 10, v.toNat % 10000 % 10] := by
  simp only [digitsMsbFirst, digit, List.cons.injEq, and_true]
  omega

/-- Settles O43: the digits down to one are 0 iff the value modulo 10000 is below that digit's power of ten. -/
theorem blankingClosedForm : Obligations.BlankingClosedForm := by
  intro t v n
  have hdigits : digitsMsbFirst v = [n / 1000, n / 100 % 10, n / 10 % 10, n % 10] := digitsMsbFirst_eq v
  have h3 : n / 1000 = 0 ↔ n < 1000 := by omega
  have hn : n < 10000 := Nat.mod_lt _ (by decide)
  show frameOfList (blankLeading t true (digitsMsbFirst v)) = _
  rw [hdigits]
  simp only [blankLeading_true, h3]
  by_cases hk : n < 1000
  · have h2 : n / 100 % 10 = 0 ↔ n < 100 := by omega
    by_cases hh : n < 100
    · have h1 : n / 10 % 10 = 0 ↔ n < 10 := by omega
      by_cases ht : n < 10
      · simp [hk, h2, hh, h1, ht, frameOfList, blankLeading, blankIdx]
      · simp [hk, h2, hh, h1, ht, frameOfList, blankIdx]
    · have ht : ¬ n < 10 := by omega
      simp [hk, h2, hh, ht, frameOfList, blankIdx]
  · have hh : ¬ n < 100 := by omega
    have ht : ¬ n < 10 := by omega
    simp [hk, hh, ht, frameOfList]

/-- With the colon, bit 7 of the second byte is set and nothing else changes (R155). -/
theorem renderFrame_colon (t : SegTable) (v : BitVec 16) :
    renderFrame t v 1#1 = { renderFrame t v 0#1 with b1 := (renderFrame t v 0#1).b1 ||| 0x80#8 } := rfl

/-- Every position shows an entry of the table (R154). -/
theorem renderFrame_codes (t : SegTable) (v : BitVec 16) :
    ∃ d0 d1 d2 d3, renderFrame t v 0#1 = ⟨segCode t d0, segCode t d1, segCode t d2, segCode t d3⟩ := by
  rw [blankingClosedForm t v]
  simp only [← apply_ite (segCode t)]
  exact ⟨_, _, _, _, rfl⟩

/-- Bit 7 of every code is 0 in a table that the spec's source allows (R51). -/
theorem segCode_bit_seven {t : SegTable} (h : sourced t = true) (d : Nat) : (segCode t d).getLsbD 7 = false := by
  simp only [sourced, Bool.and_eq_true, List.all_eq_true, Bool.not_eq_true'] at h
  obtain ⟨-, hbit⟩ := h
  by_cases hd : d < 11
  · rw [segCode, segRead_of_lt t hd]
    exact hbit _ (Vector.mem_toList_iff.mpr (Vector.getElem_mem hd))
  · rw [segCode, segRead_none t (Nat.le_of_not_lt hd)]
    rfl

/-- Settles O44: every position shows an entry of the table, of which bit 7 is 0; the colon sets that bit of the second. -/
theorem colonIsBitSevenOfSecondByte : Obligations.ColonIsBitSevenOfSecondByte := by
  intro t v c
  refine ⟨fun hs => ?_, renderFrame_colon t v, fun hblank => ?_⟩
  · obtain ⟨d0, d1, d2, d3, hf⟩ := renderFrame_codes t v
    obtain rfl | rfl := BitVec.eq_zero_or_eq_one c
    · rw [hf]
      exact ⟨segCode_bit_seven hs d1, segCode_bit_seven hs d0, segCode_bit_seven hs d2, segCode_bit_seven hs d3⟩
    · rw [renderFrame_colon, hf, BitVec.getLsbD_or, segCode_bit_seven hs]
      exact ⟨rfl, segCode_bit_seven hs d0, segCode_bit_seven hs d2, segCode_bit_seven hs d3⟩
  · rw [renderFrame_colon, hblank]
    rfl

/-- The units digit is always shown, with the colon or without (R154, R159). -/
theorem renderFrame_units (t : SegTable) (v : BitVec 16) (c : BitVec 1) :
    (renderFrame t v c).b3 = segCode t (v.toNat % 10) := by
  have hunits : v.toNat % 10000 % 10 = v.toNat % 10 := by omega
  have hplain : (renderFrame t v 0#1).b3 = segCode t (v.toNat % 10) := by rw [blankingClosedForm t v, hunits]
  obtain rfl | rfl := BitVec.eq_zero_or_eq_one c
  · exact hplain
  · rw [renderFrame_colon]
    exact hplain

/-- The code of 0 in a table that the spec's source allows (R150). -/
theorem segCode_zero_of_sourced {t : SegTable} (h : sourced t = true) : segCode t 0 = 0x3F#8 := by
  simp only [sourced, Bool.and_eq_true, beq_iff_eq] at h
  obtain ⟨⟨⟨⟨hzero, -⟩, -⟩, -⟩, -⟩ := h
  exact hzero

section Shown
variable {t : SegTable} (hs : sourced t = true) (hd : digitsShown t = true)
include hs hd

/-- Where no digit has the blank code, which is 0x00, no digit's code is 0x00 (R150). -/
theorem segCode_ne_zero {d : Nat} (h : d < 10) : segCode t d ≠ 0x00#8 := by
  rw [← segCode_blank_of_sourced hs]
  exact bne_iff_ne.mp (List.all_eq_true.mp hd d (List.mem_range.mpr h))

/-- Where no digit has the blank code, a position that blanks below `m` is blank iff the value is below `m` (R154). -/
theorem blanked_iff {n m d : Nat} (h : d < 10) :
    (if n < m then segCode t 10 else segCode t d) = 0x00#8 ↔ n < m := by
  have hblank : segCode t 10 = 0x00#8 := segCode_blank_of_sourced hs
  split
  case isTrue hlt => exact ⟨fun _ => hlt, fun _ => hblank⟩
  case isFalse hge => exact ⟨fun h0 => absurd h0 (segCode_ne_zero hs hd h), fun hlt => absurd hlt hge⟩

/-- Which positions are blank where no digit has the blank code (R154, R159). -/
theorem renderFrame_blank_iff (v : BitVec 16) :
    ((renderFrame t v 0#1).b0 = 0x00#8 ↔ v.toNat % 10000 < 1000) ∧
    ((renderFrame t v 0#1).b1 = 0x00#8 ↔ v.toNat % 10000 < 100) ∧
    ((renderFrame t v 0#1).b2 = 0x00#8 ↔ v.toNat % 10000 < 10) := by
  rw [blankingClosedForm t v]
  exact ⟨blanked_iff hs hd (by omega), blanked_iff hs hd (by omega), blanked_iff hs hd (by omega)⟩

end Shown

/-- Settles O45: a position is blank iff the value modulo 10000 is below its power of ten, and these grow to the left. -/
theorem renderLaws : Obligations.RenderLaws := by
  intro t v c
  refine ⟨(renderFrame_mod t v c).symm, renderFrame_units t v c, renderFrame_colon t v, fun hs hd => ?_⟩
  obtain ⟨hb0, hb1, hb2⟩ := renderFrame_blank_iff hs hd v
  have hzero := segCode_zero_of_sourced hs
  refine ⟨?_, fun h => hb1.mpr ?_, fun h => hb0.mpr ?_, fun h h0 => ?_, fun h h0 => ?_⟩
  · rw [renderFrame_units]
    exact segCode_ne_zero hs hd (Nat.mod_lt _ (by decide))
  · have hlt := hb2.mp h
    omega
  · have hlt := hb1.mp h
    omega
  · have hge : ¬ v.toNat % 10000 < 1000 := fun hlt => h (hb0.mpr hlt)
    have hdigit : v.toNat % 10000 / 100 % 10 = 0 := by omega
    rw [blankingClosedForm t v]
    exact (if_neg (by omega)).trans (by rw [hdigit, hzero])
  · have hge : ¬ v.toNat % 10000 < 100 := fun hlt => h (hb1.mpr hlt)
    have hdigit : v.toNat % 10000 / 10 % 10 = 0 := by omega
    rw [blankingClosedForm t v]
    exact (if_neg (by omega)).trans (by rw [hdigit, hzero])

end Sys2Proof.Machine
end

section
/-! PROOF. A run over a whole command beside the remote device (R7, R35, R58). The device acts between the block's actions,
but its reactions and the actions are independent: the run ends as if the device had acted after the big step, on every
transaction closed by then. With it REND through to the digit registers (R157). -/

namespace Sys2Proof.Machine

/-- The reaction to a wire command byte depends on its transaction, on the device's registers and on the block's number
alone, and the transaction is used up (R56, R58). -/
theorem exec_wire_oldest {i : Instr} (hi : i.isHost = false) {s s1 t : State} {bytes : List Byte}
    {rest us : List (List Byte)} {x : Option OpenTxn} (hc : s.dev.rx.closed = bytes :: rest)
    (hs : exec i s = .next s1) (hinst : t.inst = s.inst) (hdev : t.dev = { s.dev with rx := ⟨x, bytes :: us⟩ }) :
    exec i t = .next { t with dev := { s1.dev with rx := ⟨x, us⟩ } } := by
  have hdata : t.dev.dataBytes = s.dev.dataBytes := by simp only [Device.dataBytes, hdev, hc, List.headD_cons]
  have hpop : t.dev.pop = { s.dev.pop with rx := ⟨x, us⟩ } := by rw [hdev]; rfl
  cases i with
  | wDataAuto | wDataFixed | wCtrlOn _ =>
    injection hs with hs
    subst hs
    simp only [exec, execWDataAuto, execWDataFixed, execWCtrlOn, State.deviceAlone, hdata, hpop, hinst]
    split <;> rfl
  | wAddr off =>
    have hmode : t.dev.mode = s.dev.mode := by rw [hdev]
    injection hs with hs
    subst hs
    simp only [exec, execWAddr, hdata, hpop, hinst, hmode]
    split <;> rfl
  | start | stop | sendb _ | setf _ _ | wrf _ | brt _ | rend _ _ | init | lut _ => cases hi

/-- A closed transaction gives the device work (R58). -/
theorem deviceWork_ne_none {d : Device} {bytes : List Byte} {rest : List (List Byte)} (h : d.rx.closed = bytes :: rest) :
    deviceWork d ≠ .none := by
  cases bytes with
  | nil => simp only [deviceWork, h, ne_eq, reduceCtorEq, not_false_eq_true]
  | cons b ds =>
    simp only [deviceWork, h]
    split
    · exact nofun
    · split <;> exact nofun

/-- The device's part of a step depends on its oldest closed transaction, on its registers and on the block's number
alone, and that transaction is used up (R56, R58). -/
theorem deviceStep_oldest {s s1 t : State} {bytes : List Byte} {rest us : List (List Byte)} {x : Option OpenTxn}
    (hc : s.dev.rx.closed = bytes :: rest) (hs : deviceStep s = .next s1) (hinst : t.inst = s.inst)
    (hdev : t.dev = { s.dev with rx := ⟨x, bytes :: us⟩ }) :
    deviceStep t = .next { t with dev := { s1.dev with rx := ⟨x, us⟩ } } := by
  have hpop : t.dev.pop = { s.dev.pop with rx := ⟨x, us⟩ } := by rw [hdev]; rfl
  have ht : t.dev.rx.closed = bytes :: us := by rw [hdev]
  have hwork : deviceWork t.dev = deviceWork s.dev := by
    simp only [deviceWork, hc, ht]
    cases bytes <;> rfl
  unfold deviceStep at hs ⊢
  rw [hwork]
  cases hw : deviceWork s.dev with simp only [hw] at hs ⊢
  | none => exact absurd hw (deviceWork_ne_none hc)
  | run i => exact exec_wire_oldest (deviceWork_isWire hw) hc hs hinst hdev
  | empty | displayOff | other =>
    injection hs with hs
    subst hs
    simp only [State.deviceEmpty, State.deviceOff, State.deviceOther, Device.anyValue, hpop, hinst]

/-- The reader closes transactions behind those already closed (R56). -/
theorem Rx.feed_closed (t : Option OpenTxn) (c c' : List (List Byte)) (e : WireEvent) :
    Rx.feed ⟨t, c ++ c'⟩ e = ⟨(Rx.feed ⟨t, c'⟩ e).txn, c ++ (Rx.feed ⟨t, c'⟩ e).closed⟩ := by
  cases t with
  | none => cases e <;> rfl
  | some t =>
    cases e with
    | start | stop => simp [Rx.feed, Rx.close]
    | bit b => rfl
    | ackSlot => by_cases hl : t.bits.length = 8 <;> simp [Rx.feed, hl]

/-- The reader closes transactions behind those already closed, whatever it hears (R56). -/
theorem Rx.feedAll_closed (t : Option OpenTxn) (c c' : List (List Byte)) (es : List WireEvent) :
    Rx.feedAll ⟨t, c ++ c'⟩ es = ⟨(Rx.feedAll ⟨t, c'⟩ es).txn, c ++ (Rx.feedAll ⟨t, c'⟩ es).closed⟩ := by
  induction es generalizing t c' with
  | nil => rfl
  | cons e es ih =>
    show Rx.feedAll (Rx.feed ⟨t, c ++ c'⟩ e) es = _
    rw [Rx.feed_closed, ih]
    rfl

/-- An event closes at most one transaction (R56). -/
theorem Rx.feed_closed_length_le (r : Rx) (e : WireEvent) : (r.feed e).closed.length ≤ r.closed.length + 1 := by
  obtain ⟨_ | t, c⟩ := r
  · cases e <;> simp [Rx.feed, Rx.close]
  · cases e with
    | start | stop | bit b => simp [Rx.feed, Rx.close]
    | ackSlot => by_cases hl : t.bits.length = 8 <;> simp [Rx.feed, hl]

/-- The remote device after a list of actions: its receiver has heard them, its registers stay (R56). -/
theorem State.actAll_dev (s : State) (l : List PinAction) :
    (s.actAll l).dev = { s.dev with rx := s.dev.rx.feedAll (wireEvents s.pins l) } := by
  induction l generalizing s with
  | nil => rfl
  | cons a l ih =>
    rw [State.actAll_cons, ih, State.act_dev, State.act_pins, Device.hear, wireEvents, Rx.feedAll_append]

/-- The device's part of a step changes the device only and uses up the oldest closed transaction (R7, R56, R58). -/
theorem deviceStep_frame {s s1 : State} (h : deviceStep s = .next s1) :
    s1 = { s with dev := s1.dev } ∧ s1.dev.rx = ⟨s.dev.rx.txn, s.dev.rx.closed.tail⟩ := by
  cases hc : s.dev.rx.closed with
  | nil =>
    rw [deviceStep_none hc] at h
    injection h with h
    subst h
    exact ⟨rfl, by rw [List.tail_nil, ← hc]⟩
  | cons bytes rest =>
    have h' := deviceStep_oldest (us := rest) (x := s.dev.rx.txn) hc h rfl (by rw [← hc])
    rw [h] at h'
    injection h' with h'
    exact ⟨by rw [h'], by rw [h', List.tail_cons]⟩

/-- The device's reaction to its oldest closed transaction and a list of actions of the block are independent (R7, R58). -/
theorem deviceStep_actAll {s s1 : State} {bytes : List Byte} {rest : List (List Byte)}
    (hc : s.dev.rx.closed = bytes :: rest) (hs : deviceStep s = .next s1) (l : List PinAction) :
    deviceStep (s.actAll l) = .next (s1.actAll l) := by
  obtain ⟨hs1, hrx⟩ := deviceStep_frame hs
  rw [hc, List.tail_cons] at hrx
  have hpins : s1.pins = s.pins := by rw [hs1]
  have hblock : (s.actAll l).SameBlock (s1.actAll l) := State.actAll_sameBlock l hs1.symm (by rw [hrx])
  have hfeed : ∀ c, Rx.feedAll ⟨s.dev.rx.txn, c⟩ (wireEvents s.pins l) =
      ⟨(Rx.feedAll ⟨s.dev.rx.txn, []⟩ (wireEvents s.pins l)).txn,
        c ++ (Rx.feedAll ⟨s.dev.rx.txn, []⟩ (wireEvents s.pins l)).closed⟩ := fun c => by
    rw [← Rx.feedAll_closed, List.append_nil]
  rw [← hblock, s1.actAll_dev, hrx, hpins, hfeed]
  refine deviceStep_oldest hc hs (s.actAll_inst l) ?_
  rw [State.actAll_dev, ← List.cons_append, ← hfeed, ← hc]

/-- A number of the remote device's parts of a step, one after the other. -/
def deviceSteps : Nat → State → Host.Outcome State Fault Refusal
  | 0, s => .next s
  | n + 1, s => andThen (deviceStep s) (deviceSteps n)

/-- The remote device acts on every closed transaction, one part of a step for each. -/
def State.drained (s : State) : Host.Outcome State Fault Refusal := deviceSteps s.dev.rx.closed.length s

/-- Without a closed transaction nothing is left to act on (R58). -/
theorem State.drained_nil {s : State} (h : s.dev.rx.closed = []) : s.drained = .next s := by
  rw [State.drained, h]
  rfl

/-- The first reaction is part of draining the device (R58). -/
theorem State.drained_deviceStep {s s1 : State} (h : deviceStep s = .next s1) : s1.drained = s.drained := by
  obtain ⟨-, hrx⟩ := deviceStep_frame h
  cases hc : s.dev.rx.closed with
  | nil =>
    rw [deviceStep_none hc] at h
    injection h with h
    rw [h]
  | cons bytes rest => rw [State.drained, State.drained, hrx, hc, List.length_cons, deviceSteps, h]; rfl

/-- Whether the device reacts before or after some actions, draining it after them ends in the same state (R7, R58). -/
theorem State.drained_actAll {s s1 : State} (h : deviceStep s = .next s1) (l : List PinAction) :
    (s1.actAll l).drained = (s.actAll l).drained := by
  cases hc : s.dev.rx.closed with
  | nil =>
    rw [deviceStep_none hc] at h
    injection h with h
    rw [h]
  | cons bytes rest => exact State.drained_deviceStep (deviceStep_actAll hc h l)

/-- An action closes at most one transaction (R56). -/
theorem State.act_closed_length_le (s : State) (a : PinAction) :
    (s.act a).dev.rx.closed.length ≤ s.dev.rx.closed.length + 1 := by
  rw [State.act_dev, Device.hear_rx]
  cases wireEvent s.pins a with
  | none => exact Nat.le_succ _
  | some e => exact Rx.feed_closed_length_le _ e

/-- A step of an idle block without a host move is the device's part (R7, R34). -/
theorem step_idle_react {s s1 : State} (hs : deviceStep s = .next s1) (hb : s.busy = false) (hh : s.host = []) :
    step s = .next s1 := by
  obtain ⟨hs1, -⟩ := deviceStep_frame hs
  rw [step, hs, andThen_of_next, blockStep_idle (by rw [hs1]; exact hb) (by rw [hs1]; exact hh)]

/-- A step of a busy block without a host move is the device's part and then the action at `UPC` (R7, R33). -/
theorem step_busy_react {s s1 : State} {a : PinAction} (hs : deviceStep s = .next s1) (hb : s.busy = true)
    (hh : s.host = []) (ha : (actions s.seg s.cur)[s.upc.toNat]? = some a) : step s = .next (s1.act a) := by
  obtain ⟨hs1, -⟩ := deviceStep_frame hs
  obtain ⟨h, hblock, h0, -⟩ := blockStep_busy (s := s1) (by rw [hs1]; exact hb) (by rw [hs1]; simp [hh])
  have hh1 : s1.host = [] := by rw [hs1]; exact hh
  rw [step, hs, andThen_of_next, hblock, h0 hh1, ← hh1]
  exact actStep_at (by rw [hs1]; exact ha)

/-- A reaction to the only closed transaction leaves none (R58). -/
theorem deviceStep_closed_nil {s s1 : State} (hs : deviceStep s = .next s1) (hone : s.dev.rx.closed.length ≤ 1) :
    s1.dev.rx.closed = [] := by
  obtain ⟨-, hrx⟩ := deviceStep_frame hs
  rw [hrx, ← List.length_eq_zero_iff, List.length_tail]
  omega

/-- The steps of a command in progress and one more end in the state of its big step, the device having acted on every
closed transaction, by induction over the number of actions to come: the device is never more than one transaction behind
(R33, R35, R58; log entry 3). -/
theorem run_eq_drained {n : Nat} {s : State} (hi : s.SeqInv) (hh : s.host = [])
    (hone : s.dev.rx.closed.length ≤ 1) (hn : s.upcEnd.toNat - s.upc.toNat = n) :
    Host.Core.run Sys2Proof.core (n + 1) s = s.complete.drained := by
  induction n generalizing s with
  | zero =>
    obtain ⟨d, hd⟩ := deviceStep_dev s
    have hb : s.busy = false := s.idle_iff.mpr (Nat.sub_eq_zero_iff_le.mp hn)
    rw [run_succ (step_idle_react hd hb hh), State.complete, hi.remaining_idle hb, State.actAll_nil,
      ← State.drained_deviceStep hd, State.drained_nil (deviceStep_closed_nil hd hone)]
    rfl
  | succ n ih =>
    obtain ⟨d, hd⟩ := deviceStep_dev s
    have hb : s.busy = true := s.busy_iff.mpr (by omega)
    obtain ⟨a, ha⟩ := hi.action hb
    have hone1 := State.act_closed_length_le { s with dev := d } a
    rw [deviceStep_closed_nil hd hone] at hone1
    have hleft : s.upcEnd.toNat - (s.upc + 1).toNat = n := by
      rw [hi.upc_succ hb]
      omega
    rw [run_succ (step_busy_react hd hb hh ha), ih ((hi.dev d).act hb ha) ((State.act_host _ a).trans hh) hone1
      (by rw [State.act_upcEnd]; exact hleft), ← (hi.dev d).complete_busy hb ha]
    exact State.drained_actAll hd s.remaining

/-- The length of a command's list is where `UPC_END` is put (R22, R34). -/
theorem State.accepted_upcEnd (s : State) (i : Instr) :
    (s.accepted i).upcEnd.toNat = (commandActions s.seg i s.f).length := upcEnd_commandActions _ _ _

/-- A state with one host move to come is another state's with the move put there (R7). -/
theorem State.exists_hostMove {s : State} {m : HostMove} (h : s.host = [m]) :
    ∃ u : State, u.host = [] ∧ s = { u with host := [m] } :=
  ⟨{ s with host := [] }, rfl, by rw [← h]⟩

/-- A presented command without an immediate effect: its accept step, its act steps and one more step end in the state of
the whole command, the device having acted on every transaction it closes (R34, R35, R58; log entry 3). -/
theorem run_presented_command {s : State} {i : Instr} (hi : i.isHost = true) (hw : i.wf = true) (hseq : s.SeqInv)
    (hb : s.busy = false) (hrx : s.dev.rx.closed = []) (hh : s.host = []) (he : exec i s = .next (s.accepted i)) :
    Host.Core.run Sys2Proof.core ((commandActions s.seg i s.f).length + 2) { s with host := [.present (encodeWord i)] } =
      (s.afterCommand i).drained := by
  have hstep : step { s with host := [.present (encodeWord i)] } = .next (s.accepted i) := by
    rw [stepRunsPresentedCommand _ _ _ [] i (by exact hb) rfl (decode_encodeWord hi hw) (deviceStep_none (by exact hrx)),
      ← he, ← hh]
  have hone : (s.accepted i).dev.rx.closed.length ≤ 1 := by
    rw [State.accepted, State.latch_dev, hrx]
    exact Nat.zero_le 1
  have hinv : (s.accepted i).SeqInv := State.seqInv_latch (hseq.dioMode_idle hb) hi hw
  rw [run_succ hstep, run_eq_drained hinv hh hone ((Nat.sub_zero _).trans (s.accepted_upcEnd i)), State.complete,
    State.accepted, remaining_latch s hi hw]
  rfl

/-- The receiver after a whole command that sends these transactions from an idle bus (R41, R56, R66). -/
theorem State.afterCommand_rx {s : State} {i : Instr} {txns : List (List Byte)} (hp : s.pins = Pins.idle)
    (hrx : s.dev.rx = Rx.empty) (ht : commandActions s.seg i s.f = transactions txns) :
    (s.afterCommand i).dev.rx = ⟨none, txns⟩ := by
  rw [State.afterCommand, State.actAll_rx, State.accepted, State.latch_dev, State.latch_pins, hp, hrx, ht]
  exact feedAll_transactions txns []

/-- The block's part of a command leaves the device's control byte (R58). -/
@[simp] theorem State.afterCommand_ctrl (s : State) (i : Instr) : (s.afterCommand i).dev.ctrl = s.dev.ctrl :=
  State.actAll_ctrl _ _

/-- Draining the device of the two transactions of `Wrf` at offset 0: the frame is in the digit registers and the mode is
auto-increment (R58, R134). -/
theorem State.drained_wrf {s : State} {x : Option OpenTxn} {f : Frame} {rest : List (List Byte)}
    (hrx : s.dev.rx = ⟨x, [cmdDataAuto] :: [addrByte 0#2, f.b0, f.b1, f.b2, f.b3] :: rest⟩) :
    s.drained = State.drained
      { s with dev := { s.dev with rx := ⟨x, rest⟩, mode := .autoInc, dreg := f, draws := s.dev.draws + 1 } } := by
  have hauto : deviceStep s = .next
      { s with dev := { s.dev with mode := .autoInc, rx := ⟨x, [addrByte 0#2, f.b0, f.b1, f.b2, f.b3] :: rest⟩ } } := by
    rw [deviceStep_run (by rw [hrx]) (i := .wDataAuto) (by decide),
      wDataAutoResult s (by rw [Device.dataBytes, hrx]; rfl), hrx]
    rfl
  rw [← State.drained_deviceStep hauto]
  refine (State.drained_deviceStep ?_).symm
  rw [deviceStep_run rfl (i := .wAddr 0#2) (by decide), exec_wAddr_auto 0#2 rfl]
  rfl

/-- Settles O59: the run ends in the state of the whole command, the device having acted on both transactions of `Wrf`. -/
theorem renderedNumberReachesDisplay : Obligations.RenderedNumberReachesDisplay := by
  intro s v c hi hb hp hrx hh
  obtain ⟨u, hu, rfl⟩ := State.exists_hostMove hh
  have hlist : commandActions u.seg (.rend v c) u.f = wrfList 0#2 (renderFrame u.seg v c) := rfl
  have hrun := run_presented_command (s := u) (i := .rend v c) rfl rfl hi hb (congrArg Rx.closed hrx) hu
    (accept_idle (by exact hb) id _ _)
  have hclosed := State.afterCommand_rx (s := u) hp hrx (hlist.trans (wrfList_eq_transactions _ _))
  have hdrain := (State.drained_wrf hclosed).trans (State.drained_nil rfl)
  rw [hlist, wrfList_length] at hrun
  have hctrl := u.afterCommand_ctrl (.rend v c)
  have hack : (u.afterCommand (.rend v c)).ack = u.answerAt 5 := State.ack_wrfList (u.accepted (.rend v c)) _ _
  have hidle := u.afterCommand_busy (.rend v c)
  have hpins := (u.afterCommand_pins (.rend v c)).trans (applyAll_wrfList u.pins _ _)
  generalize u.afterCommand (.rend v c) = t at *
  exact ⟨_, hrun.trans hdrain, rfl, rfl, hctrl, hack, hidle, hpins⟩

end Sys2Proof.Machine
end

section
/-! PROOF. INIT (R170, R172, R173): what its one list of actions leaves, that the six commands of R173 put the same on the
wire, and the display it leaves. -/

namespace Sys2Proof.Machine

/-- The actions of INIT leave the bus idle, whatever the pins at entry (R41, R170). -/
theorem applyAll_actionsInit (p : Pins) (t : SegTable) : p.applyAll (actionsInit t) = Pins.idle := by
  rw [actionsInit, Pins.applyAll_append, applyAll_brtList]

/-- `Wrf` uses up six answers (R134, R213). -/
theorem State.answerAt_wrfList (s : State) (off : BitVec 2) (f : Frame) (k : Nat) :
    (s.actAll (wrfList off f)).answerAt k = s.answerAt (k + 6) := by
  simp [wrfList]

/-- The actions of INIT leave in `ACK` the answer to their seventh sample: `Wrf` uses up six answers and leaves the data pin
in output mode, so that the device receives the control byte (R170, R58). -/
theorem State.ack_actionsInit (s : State) (t : SegTable) : (s.actAll (actionsInit t)).ack = s.answerAt 6 := by
  have hmode : (s.actAll (wrfList 0#2 (blankFrame t))).pins.dioMode = .outOd := by
    rw [State.actAll_pins, applyAll_wrfList]
    rfl
  rw [actionsInit, State.actAll_append, State.ack_brtList _ fun _ => hmode, State.answerAt_wrfList]

/-- The blank frame of a table the spec's source allows (R150, R170). -/
theorem blankFrame_of_sourced {t : SegTable} (h : sourced t = true) : blankFrame t = Frame.zero := by
  rw [blankFrame, segCode_blank_of_sourced h]
  rfl

/-- An idle block accepts INIT, which has no immediate effect (R34, R170). -/
theorem exec_init_idle {s : State} (hb : s.busy = false) : exec .init s = .next (s.accepted .init) :=
  accept_idle hb id _ _

/-- An idle block accepts WRF, which has no immediate effect (R34, R135). -/
theorem exec_wrf_idle {s : State} (hb : s.busy = false) (off : BitVec 2) :
    exec (.wrf off) s = .next (s.accepted (.wrf off)) := accept_idle hb id _ _

/-- An idle block accepts BRT, which has no immediate effect (R34, R138). -/
theorem exec_brt_idle {s : State} (hb : s.busy = false) (l : Byte) : exec (.brt l) s = .next (s.accepted (.brt l)) :=
  accept_idle hb id _ _

/-- Settles O31: the accept step latches INIT, whose list is `Wrf` of the blank frame and then `Brt(7)`. -/
theorem initResult : Obligations.InitResult := by
  intro s hb
  have hperf : (s.afterCommand .init).performed = s.performed ++ (wrfList 0#2 (blankFrame s.seg) ++ brtList brtMax) :=
    s.afterCommand_performed .init
  refine ⟨(exec_init_idle hb).trans (congrArg _ (State.accepted_of_length (actionsInit_length s.seg))),
    s.afterCommand .init, runCommand_of_accepted rfl rfl (exec_init_idle hb), hperf, fun hs => ?_,
    (s.afterCommand_pins .init).trans (applyAll_actionsInit s.pins s.seg),
    State.ack_actionsInit (s.accepted .init) s.seg, s.afterCommand_ill .init, s.afterCommand_busy .init,
    s.afterCommand_f .init, s.afterCommand_res .init⟩
  rw [hperf, blankFrame_of_sourced hs]
  rfl

/-- The two states agree on everything but the frame registers, the command in progress and `ILL`: on the trace, the pins,
`ACK`, `RES`, the remote device and everything that answers the samples (R173). -/
def State.SameWire (s t : State) : Prop :=
  { s with f := t.f, cur := t.cur, upc := t.upc, upcEnd := t.upcEnd, ill := t.ill } = t

section SameWire
variable {s t u : State}

theorem State.SameWire.symm (h : s.SameWire t) : t.SameWire s := by
  unfold State.SameWire at h ⊢
  rw [← h]

theorem State.SameWire.trans (h : s.SameWire t) (k : t.SameWire u) : s.SameWire u := by
  unfold State.SameWire at h k ⊢
  rw [← k, ← h]

/-- What two such states agree on, field by field. -/
theorem State.SameWire.fields (h : s.SameWire t) :
    s.hist = t.hist ∧ s.pins = t.pins ∧ s.ack = t.ack ∧ s.res = t.res ∧ s.dev = t.dev ∧ s.answers = t.answers ∧
      s.draws = t.draws := by
  unfold State.SameWire at h
  rw [← h]
  exact ⟨rfl, rfl, rfl, rfl, rfl, rfl, rfl⟩

/-- No action reads what the two may differ in (R33, R101 to R105). -/
theorem State.SameWire.act (h : s.SameWire t) (a : PinAction) : (s.act a).SameWire (t.act a) := by
  unfold State.SameWire at h ⊢
  rw [← h]
  cases a <;> rfl

/-- A list of actions is performed alike whatever the frame registers and the command in progress (R33). -/
theorem State.SameWire.actAll (h : s.SameWire t) (l : List PinAction) : (s.actAll l).SameWire (t.actAll l) := by
  induction l generalizing s t with
  | nil => exact h
  | cons a l ih => exact ih (h.act a)

/-- The whole of a command without an immediate effect leaves on the wire what its actions alone leave there (R34, R35). -/
theorem State.SameWire.afterCommand (h : s.SameWire t) (i : Instr) :
    (s.actAll (commandActions t.seg i t.f)).SameWire (t.afterCommand i) :=
  (h.trans rfl : s.SameWire (t.accepted i)).actAll _

end SameWire

/-- A sequence that begins with a command without an immediate effect (R35). -/
theorem runCommands_of_accepted {s : State} {i : Instr} (hi : i.isHost = true) (hw : i.wf = true)
    (h : exec i s = .next (s.accepted i)) (is : List Instr) :
    runCommands (i :: is) s = runCommands is (s.afterCommand i) := by
  rw [runCommands, runCommand_of_accepted hi hw h, andThen_of_next]

/-- A sequence that begins with SETF: the register is written, nothing is put on the wire (R131, R35). -/
theorem runCommands_setf {s : State} (hb : s.busy = false) (idx : BitVec 2) (v : Byte) (is : List Instr) :
    ∃ t, runCommands (.setf idx v :: is) s = runCommands is t ∧ t.busy = false ∧ s.SameWire t ∧
      t.f = s.f.set idx v := by
  have he : exec (.setf idx v) s = .next (State.accepted { s with f := s.f.set idx v } (.setf idx v)) :=
    accept_idle hb (fun t => { t with f := t.f.set idx v }) _ _
  refine ⟨State.accepted { s with f := s.f.set idx v } (.setf idx v), ?_, rfl, rfl, rfl⟩
  rw [runCommands, runCommand, he, andThen_of_next, andThen_of_next, State.complete, State.accepted,
    remaining_latch _ rfl rfl]
  rfl

/-- A sequence that begins with SETFRAME: the frame registers are written, nothing is put on the wire (R83, R131). -/
theorem runCommands_setframe {s : State} (hb : s.busy = false) (f : Frame) (is : List Instr) :
    ∃ t, runCommands (pseudoSetframe f ++ is) s = runCommands is t ∧ t.busy = false ∧ s.SameWire t ∧ t.f = f := by
  obtain ⟨s0, hr0, hb0, hw0, hf0⟩ := runCommands_setf hb 0#2 f.b0
    (.setf 1#2 f.b1 :: .setf 2#2 f.b2 :: .setf 3#2 f.b3 :: is)
  obtain ⟨s1, hr1, hb1, hw1, hf1⟩ := runCommands_setf hb0 1#2 f.b1 (.setf 2#2 f.b2 :: .setf 3#2 f.b3 :: is)
  obtain ⟨s2, hr2, hb2, hw2, hf2⟩ := runCommands_setf hb1 2#2 f.b2 (.setf 3#2 f.b3 :: is)
  obtain ⟨s3, hr3, hb3, hw3, hf3⟩ := runCommands_setf hb2 3#2 f.b3 is
  exact ⟨s3, hr0.trans (hr1.trans (hr2.trans hr3)), hb3, hw0.trans (hw1.trans (hw2.trans hw3)),
    by rw [hf3, hf2, hf1, hf0]; rfl⟩

/-- SHOW and then BRT: the lists of WRF and BRT are performed one after the other, because the accept steps between them
change nothing that an action reads (R83, R34, R35). -/
theorem runCommands_show_brt {s : State} (hb : s.busy = false) (f : Frame) (l : Byte) :
    ∃ v, runCommands (pseudoShow f ++ [.brt l]) s = .next v ∧ (s.actAll (wrfList 0#2 f ++ brtList l)).SameWire v ∧
      v.ill = false ∧ v.f = f := by
  obtain ⟨t, hrun, htb, hst, rfl⟩ := runCommands_setframe hb f [.wrf 0#2, .brt l]
  rw [runCommands_of_accepted rfl rfl (exec_wrf_idle htb 0#2),
    runCommands_of_accepted rfl rfl (exec_brt_idle (t.afterCommand_busy (.wrf 0#2)) l)] at hrun
  refine ⟨_, hrun, ?_, State.afterCommand_ill _ _, (State.afterCommand_f _ _).trans (t.afterCommand_f _)⟩
  rw [State.actAll_append]
  exact (hst.afterCommand (.wrf 0#2)).afterCommand (.brt l)

/-- Settles O34: SETF puts nothing on the wire, and the lists of WRF and BRT, one after the other, are the list of INIT. -/
theorem initEqualsItsSequence : Obligations.InitEqualsItsSequence := by
  intro s hb b
  have hinit : (s.actAll (actionsInit s.seg)).SameWire (s.afterCommand .init) :=
    State.SameWire.afterCommand (t := s) rfl .init
  obtain ⟨v, hrun, hseq, hill, hf⟩ := runCommands_show_brt hb (blankFrame s.seg) brtMax
  obtain ⟨hhist, hpins, hack, hres, hdev, hanswers, hdraws⟩ := (hinit.symm.trans hseq).fields
  exact ⟨segCode_blank_of_sourced, s.afterCommand .init, v, runCommand_of_accepted rfl rfl (exec_init_idle hb), hrun,
    hhist, hpins, hack, (s.afterCommand_ill .init).trans hill.symm, hres, hdev, hanswers, hdraws,
    s.afterCommand_f .init, hf⟩

/-- Draining the device of a control byte alone in its transaction: it is in the control byte's register (R58, R130). -/
theorem State.drained_wCtrlOn {s : State} {x : Option OpenTxn} {lvl : BitVec 3} {rest : List (List Byte)}
    (hrx : s.dev.rx = ⟨x, [0x88#8 ||| lvl.setWidth 8] :: rest⟩) :
    s.drained = State.drained { s with dev := { s.dev with rx := ⟨x, rest⟩, ctrl := 0x88#8 ||| lvl.setWidth 8 } } := by
  refine (State.drained_deviceStep ?_).symm
  rw [deviceStep_run (by rw [hrx]) (decodeOfEncode (.wCtrlOn lvl) rfl),
    wCtrlOnResult s lvl (by rw [Device.dataBytes, hrx]; rfl), hrx, ctrlOn_or_eq_add]
  rfl

/-- The mock acknowledges each sample, and the reference remote device each byte it receives (R58; log entry 19). -/
theorem State.answerAt_of_ne_free {s : State} (h : s.responder ≠ .free) (k : Nat) : s.answerAt k = true := by
  unfold State.answerAt
  cases hr : s.responder with
  | free => exact absurd hr h
  | device | mock => rfl

/-- Settles O60: the run ends in the state of the whole command, the device having acted on both transactions of `Wrf` and on
the control byte. -/
theorem initReachesDisplay : Obligations.InitReachesDisplay := by
  intro s hi hb hp hrx hh
  obtain ⟨u, hu, rfl⟩ := State.exists_hostMove hh
  have hrun := run_presented_command (s := u) (i := .init) rfl rfl hi hb (congrArg Rx.closed hrx) hu (exec_init_idle hb)
  have hlist : commandActions u.seg .init u.f = actionsInit u.seg := rfl
  have hclosed := State.afterCommand_rx (s := u) hp hrx (hlist.trans (actionsInit_eq_transactions u.seg))
  have hdrain := (State.drained_wrf (f := blankFrame u.seg) hclosed).trans
    ((State.drained_wCtrlOn (lvl := 7#3) rfl).trans (State.drained_nil rfl))
  rw [hlist, actionsInit_length] at hrun
  have hack : (u.afterCommand .init).ack = u.answerAt 6 := State.ack_actionsInit (u.accepted .init) u.seg
  have hidle := u.afterCommand_busy .init
  have hpins := (u.afterCommand_pins .init).trans (applyAll_actionsInit u.pins u.seg)
  generalize u.afterCommand .init = t at *
  exact ⟨_, hrun.trans hdrain, rfl, blankFrame_of_sourced, rfl, hack,
    fun hr => hack.trans (State.answerAt_of_ne_free hr 6), hidle, hpins⟩

end Sys2Proof.Machine
end

section
/-! PROOF. The block never hangs (R33, R34, R180, R195, R214): every step answers a next state, and whatever the host does,
a step of a busy block leaves fewer actions to come. -/

namespace Sys2Proof.Machine

/-- A step answers a next state: a reset, an accept and a waiting step always do, and an act step does where the sequencer
agrees with its command (R33, R195). -/
theorem State.SeqInv.step_next {s : State} (hi : s.SeqInv) : ∃ t, step s = .next t := by
  obtain ⟨d, hd⟩ := step_eq s
  obtain ⟨hm, hh⟩ := State.hostMoved_host { s with dev := d }
  rw [hd]
  rcases blockStep_cases { s with dev := d } with c | ⟨hb, c⟩ | ⟨hb, w, i, -, hhost, hw, c⟩ | ⟨-, c⟩ | ⟨-, c⟩
  · exact ⟨_, c⟩
  · obtain ⟨a, ha⟩ := hi.action hb
    rw [c, hh]
    exact ⟨_, actStep_at (by exact ha)⟩
  · rw [c, hh]
    obtain ⟨f, r, he⟩ := exec_host hhost hw (s := { s with dev := d, host := hm }) hb
    exact ⟨_, he⟩
  · exact ⟨_, c⟩
  · exact ⟨_, c⟩

/-- After a step of a busy block fewer actions are to come: one less, or none if the host resets it (R33, R200). -/
theorem State.SeqInv.step_fewer_actions {s t : State} (hi : s.SeqInv) (hb : s.busy = true) (ht : step s = .next t) :
    t.upcEnd.toNat - t.upc.toNat < s.upcEnd.toNat - s.upc.toNat := by
  have hlt := s.busy_iff.mp hb
  obtain ⟨d, hm, rfl | ⟨-, a, -, rfl⟩ | ⟨hidle, -⟩ | ⟨hidle, -⟩⟩ := step_cases ht
  · exact Nat.sub_pos_of_lt hlt
  · simp only [State.act_upcEnd, State.act_upc, hi.upc_succ hb]
    omega
  · simp [hb] at hidle
  · simp [hb] at hidle

/-- The block is idle after at most as many steps as actions are to come, whatever the host does meanwhile, by induction
over a bound of that number (R195). -/
theorem run_reaches_idle {n : Nat} {s : State} (hi : s.SeqInv) (hn : s.upcEnd.toNat - s.upc.toNat ≤ n) :
    ∃ k t, k ≤ n ∧ Host.Core.run Sys2Proof.core k s = .next t ∧ t.busy = false := by
  induction n generalizing s with
  | zero => exact ⟨0, s, Nat.le_refl 0, run_zero s, s.idle_iff.mpr (Nat.sub_eq_zero_iff_le.mp (Nat.le_zero.mp hn))⟩
  | succ n ih =>
    cases hb : s.busy with
    | false => exact ⟨0, s, Nat.zero_le _, run_zero s, hb⟩
    | true =>
      obtain ⟨t, ht⟩ := hi.step_next
      have hfewer := hi.step_fewer_actions hb ht
      obtain ⟨k, u, hk, hu, hidle⟩ := ih (stepKeepsSequencer s t hi ht) (by omega)
      exact ⟨k + 1, u, Nat.succ_le_succ hk, (run_succ ht k).trans hu, hidle⟩

/-- A command's list bounds the actions to come (R22, R214). -/
theorem State.SeqInv.upcEnd_sub_upc_le {s : State} (hi : s.SeqInv) : s.upcEnd.toNat - s.upc.toNat ≤ 448 := by
  obtain ⟨hlen, -, -⟩ := hi
  have hle := actions_length_le s.seg s.cur
  omega

/-- An idle block accepts any word, legal or not, and leaves the host's later moves (R34, R77). -/
theorem acceptWord_idle {s : State} (hb : s.busy = false) (w : Word) :
    ∃ t, acceptWord w s = .next t ∧ t.host = s.host := by
  cases hw : legal w with
  | false => exact ⟨_, acceptWord_illegal hb hw, rfl⟩
  | true =>
    obtain ⟨i, hi⟩ := (legal_iff_decodes w).mp hw
    obtain ⟨f, r, he⟩ := exec_host (decodeWord_isHost hi) (decode_wf hi) hb
    rw [acceptWord, hi]
    exact ⟨_, he, rfl⟩

/-- Settles O54: the actions to come, at most 448, are the measure that every step of a busy block lowers. -/
theorem blockNeverHangs : Obligations.BlockNeverHangs := by
  intro s hi
  refine ⟨hi.step_next, hi.action, run_reaches_idle hi hi.upcEnd_sub_upc_le, fun hb w rest hh => ?_⟩
  obtain ⟨d, -, hs⟩ := step_present hb hh
  rw [hs]
  exact acceptWord_idle (by exact hb) w

end Sys2Proof.Machine
end

section
/-! PROOF. A step with `rst = 1` (R200 to R202): what it leaves in the block and in the remote device. -/

namespace Sys2Proof.Machine

/-- Where the host's next move asserts `rst`, reset is asserted (R200). -/
theorem State.rstNow_true {s : State} {rest : List HostMove} (h : s.host = .rst :: rest) : s.rstNow = true := by
  simp only [State.rstNow, h]

/-- With `rst = 1` a step is a reset, whatever the remote device does beside it, and uses up the host's move (R200). -/
theorem step_reset {s : State} {rest : List HostMove} (h : s.host = .rst :: rest) :
    ∃ d, step s = .next ({ s with dev := d, host := rest } : State).applyReset := by
  obtain ⟨d, hd⟩ := step_eq s
  exact ⟨d, hd.trans (blockStep_reset (s := { s with dev := d }) h)⟩

/-- Settles O2: the step is a reset of a state that keeps only the host's later moves, and the fields named are those of the
reset state. -/
theorem resetStepRestoresBlock : Obligations.ResetStepRestoresBlock := by
  intro s rest hh
  obtain ⟨d, hs⟩ := step_reset hh
  refine ⟨?_, _, hs, rfl, rfl, rfl, rfl, rfl, rfl, rfl, rfl, rfl⟩
  rw [State.ports, s.rstNow_true hh, Bool.not_true, Bool.and_false]

/-- A reset that does not move the pins leaves the remote device (R201). -/
theorem State.applyReset_dev_idle {s : State} (h : s.pins = Pins.idle) : s.applyReset.dev = s.dev := if_pos h

/-- Reset leaves the remote device's registers, also where the pins move and its receiver hears what it may (R201, R202). -/
theorem State.applyReset_sameRegs (s : State) : s.applyReset.dev.SameRegs s.dev := by
  by_cases h : s.pins = Pins.idle
  · rw [s.applyReset_dev_idle h]
    exact ⟨rfl, rfl, rfl⟩
  · have hjump : s.applyReset.dev = s.dev.jump s.inst := if_neg h
    rw [hjump]
    exact ⟨rfl, rfl, rfl⟩

/-- Settles O3: reset empties the trace and touches at most the remote device's receiver. -/
theorem resetLeavesRemoteDevice : Obligations.ResetLeavesRemoteDevice := fun _ _ hh =>
  ⟨_, blockStep_reset hh, rfl, State.applyReset_sameRegs _, State.applyReset_dev_idle⟩

end Sys2Proof.Machine
end

section
/-! PROOF. The hazards of the pins (R102, R103, R105, R204, R205). A list that begins and ends in output mode and respects
the hazards may follow another such list; every command is put together from `Start()`, `Stop()` and `SendByte(v)` in this
way. -/

namespace Sys2Proof.Machine

/-- The list respects the hazards from any pins in output mode, and leaves output mode (R40, R204). -/
def HazardSafe (l : List PinAction) : Prop :=
  ∀ p : Pins, p.dioMode = .outOd → hazardFree p l = true ∧ (p.applyAll l).dioMode = .outOd

theorem hazardSafe_nil : HazardSafe [] := fun _ hp => ⟨rfl, hp⟩

theorem HazardSafe.append {l k : List PinAction} (hl : HazardSafe l) (hk : HazardSafe k) : HazardSafe (l ++ k) := by
  intro p hp
  obtain ⟨hfree, hmode⟩ := hl p hp
  obtain ⟨hfree', hmode'⟩ := hk _ hmode
  exact ⟨by rw [hazardFree_append, hfree, hfree', Bool.and_self], by rw [Pins.applyAll_append, hmode']⟩

theorem HazardSafe.flatMap {α : Type} {g : α → List PinAction} (hg : ∀ x, HazardSafe (g x)) (xs : List α) :
    HazardSafe (xs.flatMap g) := by
  induction xs with
  | nil => exact hazardSafe_nil
  | cons x xs ih => exact List.flatMap_cons ▸ (hg x).append ih

/-- `Start()` drives data only, in output mode (R102, R106). -/
theorem hazardSafe_startList : HazardSafe startList := by
  rintro ⟨c, d, m⟩ hp
  obtain rfl : m = .outOd := hp
  exact ⟨rfl, rfl⟩

/-- `Stop()` drives data only, in output mode (R102, R108). -/
theorem hazardSafe_stopList : HazardSafe stopList := by
  rintro ⟨c, d, m⟩ hp
  obtain rfl : m = .outOd := hp
  exact ⟨rfl, rfl⟩

/-- A byte drives its bits in output mode, switches with the clock low on either side of its sample, and samples in input
mode with the clock high (R110, R113). -/
theorem hazardSafe_sendByte (v : Byte) : HazardSafe (sendByte v) := by
  rintro ⟨c, d, m⟩ hp
  obtain rfl : m = .outOd := hp
  exact ⟨rfl, rfl⟩

theorem hazardSafe_transactions (txns : List (List Byte)) : HazardSafe (transactions txns) :=
  .flatMap (fun vs => (hazardSafe_startList.append (.flatMap hazardSafe_sendByte vs)).append hazardSafe_stopList) txns

theorem hazardSafe_wrfList (off : BitVec 2) (f : Frame) : HazardSafe (wrfList off f) :=
  wrfList_eq_transactions off f ▸ hazardSafe_transactions _

theorem hazardSafe_brtList (l : Byte) : HazardSafe (brtList l) := brtList_eq_transactions l ▸ hazardSafe_transactions _

/-- A command's list is one of the primitives, empty, or whole wire transactions (R78). -/
theorem hazardSafe_commandActions (t : SegTable) (i : Instr) (f : Frame) : HazardSafe (commandActions t i f) := by
  cases i with
  | start => exact hazardSafe_startList
  | stop => exact hazardSafe_stopList
  | sendb v => exact hazardSafe_sendByte v
  | wrf off => exact hazardSafe_wrfList off f
  | rend v c => exact hazardSafe_wrfList 0#2 (renderFrame t v c)
  | brt l => exact hazardSafe_brtList l
  | init => exact (hazardSafe_wrfList 0#2 (blankFrame t)).append (hazardSafe_brtList brtMax)
  | setf _ _ | lut _ | wDataAuto | wDataFixed | wAddr _ | wCtrlOn _ => exact hazardSafe_nil

/-- Settles O21: every command's list respects the hazards from any pins in output mode. -/
theorem everyListRespectsHazards : Obligations.EveryListRespectsHazards :=
  fun t i f p hp => (hazardSafe_commandActions t i f p hp).1

/-- The list of the command in progress respects the hazards too; where there is no command it is empty (R78). -/
theorem hazardFree_actions (t : SegTable) (c : Cur) {p : Pins} (hp : p.dioMode = .outOd) :
    hazardFree p (actions t c) = true := by
  unfold actions
  split
  · exact everyListRespectsHazards _ _ _ p hp
  · rfl

/-- An action of a list that respects the hazards respects them at the pins which the actions before it leave. -/
theorem hazardFreeAt_of_getElem? {l : List PinAction} {n : Nat} {a : PinAction} {p : Pins}
    (h : hazardFree p l = true) (ha : l[n]? = some a) : hazardFreeAt (p.applyAll (l.take n)) a = true := by
  have hsplit : l = l.take n ++ a :: l.drop (n + 1) := by
    obtain ⟨hn, rfl⟩ := List.getElem?_eq_some_iff.mp ha
    rw [← List.drop_eq_getElem_cons hn, List.take_append_drop]
  rw [hsplit, hazardFree_append, hazardFree, Bool.and_eq_true, Bool.and_eq_true] at h
  exact h.2.1

/-- No action makes the clock depend on the data pin (R101 to R103). -/
theorem applyAll_clkOut_congr {p q : Pins} (h : p.clkOut = q.clkOut) (l : List PinAction) :
    (p.applyAll l).clkOut = (q.applyAll l).clkOut := by
  induction l generalizing p q with
  | nil => exact h
  | cons a l ih =>
    refine ih ?_
    cases a with
    | clk b => rfl
    | dio _ | mode _ | dly | smp => exact h

/-- The performed actions end with those of the command in progress (R61). -/
theorem State.TraceInv.performed_eq {s : State} (h : s.TraceInv) :
    ∃ before, s.performed = before ++ (actions s.seg s.cur).take s.upc.toNat := by
  refine ⟨(s.hist.drop s.upc.toNat).reverse.map TraceEntry.act, ?_⟩
  rw [← h, ← List.map_append, ← List.reverse_append, List.take_append_drop]
  rfl

/-- The pins are what the performed part of the command in progress makes of some pins (R36, R61). -/
theorem State.PinsInv.pins_eq {s : State} (hp : s.PinsInv) (ht : s.TraceInv) :
    ∃ p : Pins, s.pins = p.applyAll ((actions s.seg s.cur).take s.upc.toNat) := by
  obtain ⟨before, hb⟩ := ht.performed_eq
  exact ⟨Pins.idle.applyAll before, by rw [hp, hb, Pins.applyAll_append]⟩

/-- Settles O53: the command's list, replayed from the pins it was begun with but in output mode, switches the mode with the
clock low; and the clock of that replay is the block's. -/
theorem modeSwitchesOnlyWithClockLow : Obligations.ModeSwitchesOnlyWithClockLow := by
  intro s m _ hp ht _ hm
  obtain ⟨p, hpins⟩ := hp.pins_eq ht
  have hfree := hazardFree_actions s.seg s.cur (p := { p with dioMode := .outOd }) rfl
  have hlow := hazardFreeAt_of_getElem? hfree hm
  rw [hazardFreeAt, Bool.not_eq_true'] at hlow
  rw [hpins, ← hlow]
  exact applyAll_clkOut_congr (p := p) (q := { p with dioMode := .outOd }) rfl _

/-- Settles O22: each list sets the clock before it drives data, so that no position depends on the pins at entry. -/
theorem dataChangesOnlyWithClockLow : Obligations.DataChangesOnlyWithClockLow := fun _ _ => ⟨rfl, rfl, rfl⟩

end Sys2Proof.Machine
end

section
/-! PROOF. The counts of delay units, samples and clock rises (R213), added up over the primitives of a list. -/

namespace Sys2Proof.Machine

@[simp] theorem delayUnits_append (l k : List PinAction) : delayUnits (l ++ k) = delayUnits l + delayUnits k :=
  List.countP_append

@[simp] theorem sampleCount_append (l k : List PinAction) : sampleCount (l ++ k) = sampleCount l + sampleCount k :=
  List.countP_append

/-- The second list's rises are counted from the pins which the first one leaves. -/
@[simp] theorem risingEdges_append (p : Pins) (l k : List PinAction) :
    risingEdges p (l ++ k) = risingEdges p l + risingEdges (p.applyAll l) k := by
  induction l generalizing p with
  | nil => simp [risingEdges]
  | cons a l ih => simp [risingEdges, ih, Nat.add_assoc]

@[simp] theorem delayUnits_startList : delayUnits startList = 3 := rfl
@[simp] theorem delayUnits_stopList : delayUnits stopList = 3 := rfl
@[simp] theorem delayUnits_sendByte (v : Byte) : delayUnits (sendByte v) = 28 := rfl

@[simp] theorem sampleCount_startList : sampleCount startList = 0 := rfl
@[simp] theorem sampleCount_stopList : sampleCount stopList = 0 := rfl
@[simp] theorem sampleCount_sendByte (v : Byte) : sampleCount (sendByte v) = 1 := rfl

/-- `Start()` raises the clock only where it was low (R106). -/
@[simp] theorem risingEdges_startList {p : Pins} (h : p.clkOut = true) : risingEdges p startList = 0 := by
  obtain ⟨c, d, m⟩ := p
  obtain rfl : c = true := h
  rfl

/-- `Stop()` lowers the clock and raises it once (R108). -/
@[simp] theorem risingEdges_stopList (p : Pins) : risingEdges p stopList = 1 := by simp [risingEdges, stopList, Pins.apply]

/-- A byte lowers the clock and raises it once for each bit and once for the sample (R110). -/
@[simp] theorem risingEdges_sendByte (p : Pins) (v : Byte) : risingEdges p (sendByte v) = 9 := by
  simp [risingEdges, sendByte, bitList, ackList, Pins.apply]

/-- The counts of `Wrf`: two transactions of six bytes in all (R134, R213). -/
theorem wrfList_counts (off : BitVec 2) (f : Frame) :
    (wrfList off f).length = 376 ∧ delayUnits (wrfList off f) = 180 ∧ sampleCount (wrfList off f) = 6 ∧
      risingEdges Pins.idle (wrfList off f) = 56 :=
  ⟨wrfList_length off f, by simp [wrfList], by simp [wrfList], by simp [wrfList, Pins.idle]⟩

/-- The counts of `Brt`: one transaction of one byte (R137, R213). -/
theorem brtList_counts (l : Byte) :
    (brtList l).length = 72 ∧ delayUnits (brtList l) = 34 ∧ sampleCount (brtList l) = 1 ∧
      risingEdges Pins.idle (brtList l) = 10 :=
  ⟨brtList_length l, by simp [brtList], by simp [brtList], by simp [brtList, Pins.idle]⟩

/-- The counts of INIT are those of `Wrf` and `Brt` added, because `Wrf` leaves the bus idle (R170, R213). -/
theorem actionsInit_counts (t : SegTable) :
    (actionsInit t).length = 448 ∧ delayUnits (actionsInit t) = 214 ∧ sampleCount (actionsInit t) = 7 ∧
      risingEdges Pins.idle (actionsInit t) = 66 := by
  obtain ⟨-, hdly, hsmp, hrise⟩ := wrfList_counts 0#2 (blankFrame t)
  obtain ⟨-, hdly', hsmp', hrise'⟩ := brtList_counts brtMax
  refine ⟨actionsInit_length t, ?_, ?_, ?_⟩
  · rw [actionsInit, delayUnits_append, hdly, hdly']
  · rw [actionsInit, sampleCount_append, hsmp, hsmp']
  · rw [actionsInit, risingEdges_append, applyAll_wrfList, hrise, hrise']

/-- Settles O20: SENDB is one byte, WRF and REND are `Wrf`, BRT is `Brt`, and INIT is one after the other. -/
theorem commandCounts : Obligations.CommandCounts := fun t f =>
  ⟨fun v => ⟨sendByte_length v, delayUnits_sendByte v, sampleCount_sendByte v, risingEdges_sendByte _ v⟩,
    brtList_counts, fun off => wrfList_counts off f, fun v c => wrfList_counts 0#2 (renderFrame t v c),
    actionsInit_counts t⟩

end Sys2Proof.Machine
end

section
/-! PROOF. The wire byte that selects fixed address mode (R133, GK3; log entry 8). -/

namespace Sys2Proof.Machine

/-- Settles O39: a `[0x44]` that stands alone has its effect on the device whose oldest transaction is used up. -/
theorem wDataFixedResult : Obligations.WDataFixedResult := fun s halone =>
  show Host.Outcome.next (s.deviceAlone fun d => { d with mode := .fixedAddr }) = _ from
    congrArg Host.Outcome.next (State.deviceAlone_of_nil halone _)

end Sys2Proof.Machine
end
